-- ==== Sys2Proof/Word.lean ====
section
/-! DEFINITION. The two word types of the machine (00_scope.md R5): data bytes and bus addresses. -/

namespace Sys2Proof

/-- A data byte: 8 bits, numbered 7 down to 0 (R5, R8). -/
abbrev Byte := BitVec 8

/-- A bus address: 16 bits (R5, R38). -/
abbrev Address := BitVec 16

end Sys2Proof
end

