-- ==== Sys2Proof/Syntax.lean ====
section
/-! DEFINITION. The instruction set as data: the 18 rows of the opcode table (30_encoding.md R85) and the
instructions with their operand bytes (R81 to R83). -/

namespace Sys2Proof

/-- The instruction formats IMP, IMM, ZP, ABS and REL (R81 to R83). -/
inductive Mode where
  | implied
  | immediate
  | zeroPage
  | absolute
  | relative
deriving DecidableEq, Repr

/-- One variant per mnemonic and addressing-mode pair of the opcode table (R85, R86), in the table's order. -/
inductive Row where
  | hlt
  | ldaImm
  | ldxImm
  | ldyImm
  | ldaZp
  | ldaAbs
  | staZp
  | stxZp
  | styZp
  | staAbs
  | stxAbs
  | styAbs
  | pha
  | pla
  | beq
  | bne
  | bpl
  | bmi
deriving DecidableEq, Repr

/-- The 18 rows in the order of the table (R85). -/
def Row.all : List Row :=
  [.hlt, .ldaImm, .ldxImm, .ldyImm, .ldaZp, .ldaAbs, .staZp, .stxZp, .styZp] ++
  [.staAbs, .stxAbs, .styAbs, .pha, .pla, .beq, .bne, .bpl, .bmi]

/-- The addressing mode of each row (R85). -/
def Row.mode : Row → Mode
  | .hlt => .implied
  | .ldaImm => .immediate
  | .ldxImm => .immediate
  | .ldyImm => .immediate
  | .ldaZp => .zeroPage
  | .ldaAbs => .absolute
  | .staZp => .zeroPage
  | .stxZp => .zeroPage
  | .styZp => .zeroPage
  | .staAbs => .absolute
  | .stxAbs => .absolute
  | .styAbs => .absolute
  | .pha => .implied
  | .pla => .implied
  | .beq => .relative
  | .bne => .relative
  | .bpl => .relative
  | .bmi => .relative

/-- An instruction with its operand bytes, one constructor per row of `opcode_table.json`. The names of the
operand bytes are those of R81 to R83: `imm`, `zp`, `rel`, and `lo` before `hi` for an absolute address. -/
inductive Instr where
  | hlt
  | ldaImm (imm : Byte)
  | ldxImm (imm : Byte)
  | ldyImm (imm : Byte)
  | ldaZp (zp : Byte)
  | ldaAbs (lo hi : Byte)
  | staZp (zp : Byte)
  | stxZp (zp : Byte)
  | styZp (zp : Byte)
  | staAbs (lo hi : Byte)
  | stxAbs (lo hi : Byte)
  | styAbs (lo hi : Byte)
  | pha
  | pla
  | beq (rel : Byte)
  | bne (rel : Byte)
  | bpl (rel : Byte)
  | bmi (rel : Byte)
deriving DecidableEq, Repr

/-- The table row an instruction belongs to. -/
def Instr.row : Instr → Row
  | .hlt => .hlt
  | .ldaImm _ => .ldaImm
  | .ldxImm _ => .ldxImm
  | .ldyImm _ => .ldyImm
  | .ldaZp _ => .ldaZp
  | .ldaAbs _ _ => .ldaAbs
  | .staZp _ => .staZp
  | .stxZp _ => .stxZp
  | .styZp _ => .styZp
  | .staAbs _ _ => .staAbs
  | .stxAbs _ _ => .stxAbs
  | .styAbs _ _ => .styAbs
  | .pha => .pha
  | .pla => .pla
  | .beq _ => .beq
  | .bne _ => .bne
  | .bpl _ => .bpl
  | .bmi _ => .bmi

end Sys2Proof
end

