-- ==== Sys2Proof/Config.lean ====
section
/-! DEFINITION. The implementation parameters of 00_scope.md R6 as one record `Cfg` of plain data, and the one
uninterpreted parameter, the cycle cost. The values of the default instantiation `P_NES` stand in
Machine/Defaults.lean, and the well-formedness conditions of R7 in WellFormed.lean. -/

namespace Sys2Proof

/-- The 18 opcode-byte parameters `OPC_<name>` (R6, R85). -/
structure Opcodes where
  hlt    : Byte
  ldaImm : Byte
  ldxImm : Byte
  ldyImm : Byte
  ldaZp  : Byte
  ldaAbs : Byte
  staZp  : Byte
  stxZp  : Byte
  styZp  : Byte
  staAbs : Byte
  stxAbs : Byte
  styAbs : Byte
  pha    : Byte
  pla    : Byte
  beq    : Byte
  bne    : Byte
  bpl    : Byte
  bmi    : Byte
deriving DecidableEq, Repr

/-- The configuration of one build (R6). Constant during execution; every rule is stated over it. -/
structure Cfg where
  /-- `RAM_SIZE`, in bytes. -/
  ramSize : Nat
  /-- `ROM_BASE`. -/
  romBase : Address
  /-- `ROM_SIZE`, in bytes. -/
  romSize : Nat
  /-- `RESET_VECTOR`: the address of the vector's low byte. -/
  resetVector : Address
  /-- `STACK_BASE`: the base of the stack page for push and pull alike (D1). -/
  stackBase : Address
  /-- `RAM_FILL`: every RAM byte after reset. -/
  ramFill : Byte
  /-- `OPC_<name>`. -/
  opcodes : Opcodes
  /-- `RESET_A`, OPEN (D6). -/
  resetA : Byte
  /-- `RESET_X`, OPEN (D6). -/
  resetX : Byte
  /-- `RESET_Y`, OPEN (D6). -/
  resetY : Byte
  /-- `RESET_SP`, OPEN (D6). -/
  resetSp : Byte
  /-- `FLAGS_ON_LDX_LDY_IMM` (D11). -/
  flagsOnLdxLdyImm : Bool
deriving DecidableEq, Repr

/-- An executed instruction, the argument of `CYCLES` (R6, R104): its row, its operand bytes, the address of its
opcode byte and the program counter it left. DESIGN CHOICE (log 10): R104 writes `CYCLES(ins, ...)` and leaves the
further arguments unsaid; with the two addresses a cost may depend on whether a branch was taken and where it went. -/
structure Executed where
  row      : Row
  operands : List Byte
  pcBefore : Address
  pcAfter  : Address
deriving DecidableEq, Repr

/-- `CYCLES`, the cycle cost a completed step reports: an uninterpreted parameter with no body (R104, D12). -/
opaque Config.cycles : Executed → Nat

end Sys2Proof
end

