-- ==== Sys2Proof/WellFormed.lean ====
section
/-! DEFINITION. Well-formedness: of an instruction (30_encoding.md R87), of a configuration (00_scope.md R7), and of
an image file (70_reset_and_hazards.md R197). -/

namespace Sys2Proof

/-- The operand bytes of an instruction, in no particular order. -/
def Instr.fields : Instr → List Byte
  | .hlt => []
  | .ldaImm imm => [imm]
  | .ldxImm imm => [imm]
  | .ldyImm imm => [imm]
  | .ldaZp zp => [zp]
  | .ldaAbs lo hi => [lo, hi]
  | .staZp zp => [zp]
  | .stxZp zp => [zp]
  | .styZp zp => [zp]
  | .staAbs lo hi => [lo, hi]
  | .stxAbs lo hi => [lo, hi]
  | .styAbs lo hi => [lo, hi]
  | .pha => []
  | .pla => []
  | .beq rel => [rel]
  | .bne rel => [rel]
  | .bpl rel => [rel]
  | .bmi rel => [rel]

/-- An instruction is well formed when every operand byte is a legal one. R87: "Operand bytes have no illegal
values: every `imm8`, `zp8`, `rel8`, `lo8`, `hi8` from 0x00 to 0xFF is legal", so no ill-formed instruction exists;
the operands' type says the same, and `Instr.wf_always` (Laws/Decode.lean) proves it. -/
def Instr.wf (i : Instr) : Bool :=
  i.fields.all fun b => decide (b.toNat ≤ 0xFF)

/-- The 18 opcode bytes in the table's order. -/
def Opcodes.toList (o : Opcodes) : List Byte :=
  [o.hlt, o.ldaImm, o.ldxImm, o.ldyImm, o.ldaZp, o.ldaAbs, o.staZp, o.stxZp, o.styZp] ++
  [o.staAbs, o.stxAbs, o.styAbs, o.pha, o.pla, o.beq, o.bne, o.bpl, o.bmi]

/-- R7: the 18 `OPC_<name>` bytes are pairwise distinct. -/
abbrev Opcodes.distinct (o : Opcodes) : Prop := o.toList.Nodup

/-- R7: `0x0200 <= RAM_SIZE <= ROM_BASE`. -/
abbrev Cfg.ramSizeOk (c : Cfg) : Prop := 0x0200 ≤ c.ramSize ∧ c.ramSize ≤ c.romBase.toNat

/-- R7: `ROM_BASE + ROM_SIZE = 0x10000` and `ROM_SIZE >= 4`. -/
abbrev Cfg.romSizeOk (c : Cfg) : Prop := c.romBase.toNat + c.romSize = 0x10000 ∧ 4 ≤ c.romSize

/-- R7: `ROM_BASE <= RESET_VECTOR <= 0xFFFE`. -/
abbrev Cfg.vectorOk (c : Cfg) : Prop := c.romBase.toNat ≤ c.resetVector.toNat ∧ c.resetVector.toNat ≤ 0xFFFE

/-- R7: `STACK_BASE + 0xFF < RAM_SIZE`. -/
abbrev Cfg.stackOk (c : Cfg) : Prop := c.stackBase.toNat + 0xFF < c.ramSize

/-- A configuration is well formed when all the conditions of R7 hold. -/
abbrev Cfg.wf (c : Cfg) : Prop :=
  c.ramSizeOk ∧ c.romSizeOk ∧ c.vectorOk ∧ c.stackOk ∧ c.opcodes.distinct

/-- The number of header bytes an image file begins with, which CORE never sees (R40, R197). -/
def imageHeaderBytes : Nat := 16

/-- R197: an image file is accepted when it holds the whole header and at most `ROM_SIZE` bytes after it. -/
abbrev Cfg.imageOk (c : Cfg) (file : List Byte) : Prop :=
  imageHeaderBytes ≤ file.length ∧ file.length ≤ imageHeaderBytes + c.romSize

end Sys2Proof
end

