-- ==== Sys2Proof/Decode.lean ====
section
/-! DEFINITION. The decoder, total on any bytes and rejecting by name (30_encoding.md R80 to R87), and the encoder
written from the same table (R85). -/

namespace Sys2Proof

/-- The parameter `OPC_<name>` of each row (R85, columns 1 to 4). -/
def Opcodes.byte (o : Opcodes) : Row → Byte
  | .hlt => o.hlt
  | .ldaImm => o.ldaImm
  | .ldxImm => o.ldxImm
  | .ldyImm => o.ldyImm
  | .ldaZp => o.ldaZp
  | .ldaAbs => o.ldaAbs
  | .staZp => o.staZp
  | .stxZp => o.stxZp
  | .styZp => o.styZp
  | .staAbs => o.staAbs
  | .stxAbs => o.stxAbs
  | .styAbs => o.styAbs
  | .pha => o.pha
  | .pla => o.pla
  | .beq => o.beq
  | .bne => o.bne
  | .bpl => o.bpl
  | .bmi => o.bmi

/-- The default opcode bytes of R85. PRESUMED but for HLT and LDA immediate (D5, log 2): the other sixteen are the
MOS 6502 assignment, the spec's own choice from general knowledge. -/
def Opcodes.standard : Opcodes where
  hlt    := 0x02
  ldaImm := 0xA9
  ldxImm := 0xA2
  ldyImm := 0xA0
  ldaZp  := 0xA5
  ldaAbs := 0xAD
  staZp  := 0x85
  stxZp  := 0x86
  styZp  := 0x84
  staAbs := 0x8D
  stxAbs := 0x8E
  styAbs := 0x8C
  pha    := 0x48
  pla    := 0x68
  beq    := 0xF0
  bne    := 0xD0
  bpl    := 0x10
  bmi    := 0x30

/-- How many operand bytes follow the opcode byte in each format (R81 to R83). -/
def Mode.operandBytes : Mode → Nat
  | .implied => 0
  | .immediate => 1
  | .zeroPage => 1
  | .relative => 1
  | .absolute => 2

/-- The length of an instruction in bytes: the opcode byte and its operand bytes (R80). -/
def Row.length (r : Row) : Nat := 1 + r.mode.operandBytes

/-- The length of an instruction in bytes (R80). -/
def Instr.length (i : Instr) : Nat := i.row.length

/-- The row whose opcode byte is `b`, or none where `b` is undecodable (R86). The whole byte is compared and
nothing else is looked at. In a configuration whose bytes are not distinct, which R7 excludes, the first row of the
table answers (log 14). -/
def decodeRow (o : Opcodes) (b : Byte) : Option Row :=
  Row.all.find? fun r => decide (o.byte r = b)

/-- The instruction of a row whose operand bytes, lower address first, are `b1` and `b2`; a shorter format leaves
the bytes it does not have unread (R81 to R83). -/
def Row.build (r : Row) (b1 b2 : Byte) : Instr :=
  match r with
  | .hlt => .hlt
  | .ldaImm => .ldaImm b1
  | .ldxImm => .ldxImm b1
  | .ldyImm => .ldyImm b1
  | .ldaZp => .ldaZp b1
  | .ldaAbs => .ldaAbs b1 b2
  | .staZp => .staZp b1
  | .stxZp => .stxZp b1
  | .styZp => .styZp b1
  | .staAbs => .staAbs b1 b2
  | .stxAbs => .stxAbs b1 b2
  | .styAbs => .styAbs b1 b2
  | .pha => .pha
  | .pla => .pla
  | .beq => .beq b1
  | .bne => .bne b1
  | .bpl => .bpl b1
  | .bmi => .bmi b1

/-- The decoder of the step: the bytes at three consecutive addresses to an instruction, or none where the first is
undecodable (R80, R86). -/
def decodeBytes (o : Opcodes) (b0 b1 b2 : Byte) : Option Instr :=
  (decodeRow o b0).map fun r => r.build b1 b2

/-- Why a byte sequence is no instruction. -/
inductive Reject where
  /-- The first byte matches no entry of the opcode table (R87). -/
  | undecodable (opcode : Byte)
  /-- The sequence ends before the instruction does. A fetch never meets this: every address can be read (R24). -/
  | truncated
deriving DecidableEq, Repr

/-- What decoding a byte sequence gives: an instruction with the bytes after it, or a rejection by name. -/
inductive Decoded where
  | instr (i : Instr) (rest : List Byte)
  | rejected (why : Reject)
deriving DecidableEq, Repr

/-- The decoder over any sequence of bytes (R80, R86). -/
def decode (o : Opcodes) : List Byte → Decoded
  | [] => .rejected .truncated
  | b0 :: rest =>
    match decodeRow o b0 with
    | none => .rejected (.undecodable b0)
    | some r =>
      match r.mode.operandBytes, rest with
      | 0, rest => .instr (r.build 0 0) rest
      | 1, b1 :: rest => .instr (r.build b1 0) rest
      | 2, b1 :: b2 :: rest => .instr (r.build b1 b2) rest
      | _, _ => .rejected .truncated

/-- The operand bytes of an instruction as they lie in memory, lower address first: an absolute address is stored
low byte first (R61, R83). -/
def Instr.operands : Instr → List Byte
  | .hlt => []
  | .ldaImm imm => [imm]
  | .ldxImm imm => [imm]
  | .ldyImm imm => [imm]
  | .ldaZp zp => [zp]
  | .ldaAbs lo hi => [lo, hi]
  | .staZp zp => [zp]
  | .stxZp zp => [zp]
  | .styZp zp => [zp]
  | .staAbs lo hi => [lo, hi]
  | .stxAbs lo hi => [lo, hi]
  | .styAbs lo hi => [lo, hi]
  | .pha => []
  | .pla => []
  | .beq rel => [rel]
  | .bne rel => [rel]
  | .bpl rel => [rel]
  | .bmi rel => [rel]

/-- The encoder: the opcode byte of the instruction's row, then its operand bytes (R80). -/
def encode (o : Opcodes) (i : Instr) : List Byte :=
  o.byte i.row :: i.operands

/-- Byte `k` of an instruction whose bits the table numbers from the least significant bit of the first byte. -/
def tableByte (w k : Nat) : Byte := BitVec.ofNat 8 (w / 2 ^ (8 * k))

/-- The instruction the decoder reads from the table's numbering of its bits, with the default opcode bytes; bits
at `nbits` and above are 0. -/
def decodeTableWord (nbits w : Nat) : Option Instr :=
  decodeBytes Opcodes.standard (tableByte (w % 2 ^ nbits) 0) (tableByte (w % 2 ^ nbits) 1) (tableByte (w % 2 ^ nbits) 2)

end Sys2Proof
end

