-- ==== Sys2Proof/Machine/Defaults.lean ====
section
/-! DEFINITION. `P_NES`, the default instantiation of the parameters (00_scope.md R6, 20_memory.md R52). Every number
here but the RAM fill and two opcode bytes is the spec's own choice from general knowledge (D1 to D5), so claims are
stated over every `Cfg` and this record serves the reset state and the tests. -/

namespace Sys2Proof

/-- The default instantiation `P_NES`. The address map and the vector are the spec's defaults (log 3, 4, 5). The four
OPEN reset values are the ones the spec's own test programs take "for definiteness" (95_test_vectors.md part 3).
DESIGN CHOICE (log 6): R42 leaves them open and says not to pick zero; no claim may rest on them. -/
def Cfg.pNes : Cfg where
  ramSize          := 0x0800
  romBase          := 0x8000
  romSize          := 0x8000
  resetVector      := 0xFFFC
  stackBase        := 0x0100
  ramFill          := 0xFF
  opcodes          := Opcodes.standard
  resetA           := 0xAA
  resetX           := 0xBB
  resetY           := 0xCC
  resetSp          := 0xFD
  flagsOnLdxLdyImm := false

end Sys2Proof
end

