-- ==== Sys2Proof/Machine/Memory.lean ====
section
/-! DEFINITION. The bus: the address map (20_memory.md R50, R51), the contents of RAM and ROM as one canonical list of
bytes, and the read and write primitives (R55, R56, R60). -/

namespace Sys2Proof.Machine

/-- The contents of RAM and ROM: pairs of a bus address and a byte, addresses strictly rising, and no pair equal to
what its address reads as when it is not listed (`Memory.wf`). DESIGN CHOICE (log 15): the spec has two arrays. -/
abbrev Memory := List Host.Cell

/-- The three regions of the address map (R50). -/
inductive Region where
  | ram
  | rom
  | reserved
deriving DecidableEq, Repr

/-- The region of an address (R50), decided in the rule's order: it depends on the address and the configuration
only. -/
def region (c : Cfg) (addr : Address) : Region :=
  if addr.toNat < c.ramSize then .ram
  else if c.romBase.toNat ≤ addr.toNat then .rom
  else .reserved

namespace Memory

/-- Memory with nothing listed: RAM as reset leaves it (R35) and a ROM with no image (R36). -/
def blank : Memory := []

/-- What an address that is not listed reads as: `RAM_FILL` in RAM (R35, R42), 0x00 in ROM where the image has no byte
(R36, R197), 0x00 in the reserved region (R55). -/
def unlisted (c : Cfg) (a : Nat) : Byte :=
  if a < c.ramSize then c.ramFill else 0x00

/-- The byte listed at an address, if one is. -/
def lookup : Memory → Nat → Option Byte
  | [], _ => none
  | (b, v) :: m, a => if b = a then some v else lookup m a

/-- List a byte at an address, in its place in the rising order. -/
def insert (a : Nat) (v : Byte) : Memory → Memory
  | [] => [(a, v)]
  | (b, w) :: m =>
    if a < b then (a, v) :: (b, w) :: m
    else if a = b then (a, v) :: m
    else (b, w) :: insert a v m

/-- Take an address off the list. -/
def erase (a : Nat) : Memory → Memory
  | [] => []
  | (b, w) :: m => if b = a then erase a m else (b, w) :: erase a m

/-- The byte stored at an address. -/
def get (c : Cfg) (m : Memory) (a : Nat) : Byte :=
  (lookup m a).getD (unlisted c a)

/-- Store a byte at an address, keeping the canonical form. -/
def put (c : Cfg) (m : Memory) (a : Nat) (v : Byte) : Memory :=
  if v = unlisted c a then erase a m else insert a v m

/-- A listed pair is legal: its address is a 16-bit one with a backing store (R37, R50), and its byte is not what
the address would read as unlisted. -/
abbrev legalCell (c : Cfg) (cell : Host.Cell) : Prop :=
  cell.1 < 2 ^ 16 ∧ region c (BitVec.ofNat 16 cell.1) ≠ .reserved ∧ cell.2 ≠ unlisted c cell.1

/-- The canonical form: addresses strictly rising and every pair legal. -/
abbrev wf (c : Cfg) (m : Memory) : Prop :=
  m.Pairwise (fun p q => p.1 < q.1) ∧ ∀ cell ∈ m, legalCell c cell

end Memory

/-- `MemRead(addr, 1)` (R55): RAM and ROM answer with their byte, the reserved region with 0x00. It never fails and
changes nothing (R58). -/
def busRead (c : Cfg) (m : Memory) (addr : Address) : Byte :=
  match region c addr with
  | .ram => Memory.get c m addr.toNat
  | .rom => Memory.get c m addr.toNat
  | .reserved => 0x00

/-- `MemRead(addr, 2)` (R60): two byte reads, the low byte at the lower address, the second address modulo 2^16. -/
def busReadWord (c : Cfg) (m : Memory) (addr : Address) : Address :=
  busRead c m (addr + 1) ++ busRead c m addr

/-- The bus's answer to a write request (10_state.md R47). -/
inductive WriteAnswer where
  | ok (m : Memory)
  | invalidWriteTarget
deriving DecidableEq, Repr

/-- `MemWrite(addr, 1, v)` (R56): a write changes one RAM byte, or is rejected, in ROM and in the reserved region,
with no memory changed (R57). -/
def busWrite (c : Cfg) (m : Memory) (addr : Address) (v : Byte) : WriteAnswer :=
  match region c addr with
  | .ram => .ok (Memory.put c m addr.toNat v)
  | .rom => .invalidWriteTarget
  | .reserved => .invalidWriteTarget

end Sys2Proof.Machine
end

