-- ==== Sys2Proof/Machine/State.lean ====
section
/-! DEFINITION. The state of CORE as plain data (10_state.md, the tuple at its top), the reasons a step can stop, and
the state right after reset (R42, R190). -/

namespace Sys2Proof.Machine

/-- The three general registers (R20). -/
inductive Reg where
  | A
  | X
  | Y
deriving DecidableEq, Repr

/-- The five flags, five separate bits and no packed byte (R28, R31): carry, zero, interrupt-disable, overflow,
negative. -/
structure Flags where
  c : Bool
  z : Bool
  i : Bool
  v : Bool
  n : Bool
deriving DecidableEq, Repr

/-- The flags after reset (R29): interrupt-disable is 1, the others 0. -/
def Flags.reset : Flags where
  c := false
  z := false
  i := true
  v := false
  n := false

/-- A fault kind with its recorded information (60_exceptions.md R160). -/
inductive FaultRecord where
  /-- Code 1: the fetched opcode byte matches no entry of the table; the byte and the address it came from. -/
  | unimplementedOpcode (opcode : Byte) (addr : Address)
  /-- Code 2: a store to ROM or to the reserved region; the target address and the byte that was to be written. -/
  | invalidWriteTarget (addr : Address) (data : Byte)
  /-- Code 3: the host could not obtain the program image. No step raises it (R164). -/
  | startupIOError
deriving DecidableEq, Repr

/-- The state. `cfg`, and the part of `mem` at ROM addresses, are constant during execution (R36, R40); they stand here
because a step is a function of the state, the ROM and the configuration alone (R39). DESIGN CHOICE (log 1). -/
structure State where
  /-- The configuration of the build (00_scope.md R6), constant. -/
  cfg : Cfg
  /-- The accumulator A (R20). -/
  a : Byte
  /-- Index register X (R20). -/
  x : Byte
  /-- Index register Y (R20). -/
  y : Byte
  /-- The program counter: between steps the address of the next opcode byte (R22). -/
  pc : Address
  /-- The stack pointer: an offset into the stack page (R26). -/
  sp : Byte
  /-- The five flags (R28). -/
  flags : Flags
  /-- The halt latch (R33). -/
  halted : Bool
  /-- The fault latch, empty or a record (R34). -/
  fault : Option FaultRecord
  /-- RAM and ROM (R35, R36). -/
  mem : Memory
deriving DecidableEq, Repr

/-- Why no step exists (R102). Raised by `step` alone, in a state that is not Running; no instruction's meaning answers
with one. What the spec calls a fault is not this: it is a next state whose fault latch is filled (R163, log 7). -/
inductive Fault where
  /-- CORE is Halted: HLT has run, the state is frozen until reset (R33, R102). Safe: nothing is claimed past it. -/
  | halted
  /-- CORE is Faulted: the latch holds this record, the state is frozen until reset (R34, R102). Safe, as above. -/
  | faulted (record : FaultRecord)
deriving DecidableEq, Repr

/-- Why an instruction has no meaning. -/
inductive Refusal where
  /-- The instruction is not modelled yet. Raised by an arm of `exec` only; safe. No arm raises it now. -/
  | notModelled (mnemonic : String)
deriving DecidableEq, Repr

/-- The state right after reset (R42, R190) in the default configuration with no image loaded: memory lists nothing, so
every RAM byte reads 0xFF and every ROM byte 0x00, and the program counter is the vector read from that ROM. The values
of A, X, Y and SP are the parameters of `Cfg.pNes`, a DESIGN CHOICE (log 6). How a program comes to run: log 16. -/
def State.reset : State where
  cfg    := Cfg.pNes
  a      := Cfg.pNes.resetA
  x      := Cfg.pNes.resetX
  y      := Cfg.pNes.resetY
  pc     := busReadWord Cfg.pNes Memory.blank Cfg.pNes.resetVector
  sp     := Cfg.pNes.resetSp
  flags  := Flags.reset
  halted := false
  fault  := none
  mem    := Memory.blank

end Sys2Proof.Machine
end

