-- ==== Sys2Proof/Machine/Flags.lean ====
section
/-! DEFINITION. The one flag computation of the machine, `SetZN`, and the branch conditions (10_state.md R29, R30;
44_branches.md R150). -/

namespace Sys2Proof.Machine

/-- `SetZN(v)` (R30): zero flag = (v == 0), negative flag = bit 7 of v; C, I and V are not touched. -/
def setZN (v : Byte) (f : Flags) : Flags :=
  { f with z := decide (v = 0), n := v.getLsbD 7 }

/-- `SetZN(v)` under a parameter: R121 and R122 write the flags only if `FLAGS_ON_LDX_LDY_IMM`. -/
def setZNIf (on : Bool) (v : Byte) (f : Flags) : Flags :=
  if on then setZN v f else f

end Sys2Proof.Machine
end

