-- ==== Sys2Proof/Machine/Operands.lean ====
section
/-! DEFINITION. How each operand form becomes a value (30_encoding.md R84) and the address arithmetic of 00_scope.md R8,
R9, R10. -/

namespace Sys2Proof.Machine

/-- `zext_16(b)`: the 16-bit value equal to the byte (R9). -/
def zext16 (b : Byte) : Address := BitVec.setWidth 16 b

/-- `sext_16(b)`: the 16-bit two's-complement value of the byte read as signed (R9, R150): `b` below 0x80, else
`b + 0xFF00`. -/
def sext16 (b : Byte) : Address :=
  if b.toNat < 0x80 then zext16 b else zext16 b + 0xFF00

/-- The byte read as a signed number in -128 to 127: "values ≥ 128 are reduced by 256" (R84, R150). -/
def signedByte (b : Byte) : Int :=
  if b.toNat < 128 then (b.toNat : Int) else (b.toNat : Int) - 256

/-- The zero-page effective address: the operand with high byte 0x00 (R84). -/
def zeroPageAddress (zp : Byte) : Address := zext16 zp

/-- The absolute effective address `{hi8, lo8}` = `hi8*256 + lo8` (R61, R84). -/
def absoluteAddress (lo hi : Byte) : Address := hi ++ lo

/-- The address an SP value designates, `STACK_BASE +16 zext_16(SP)`, for push and pull alike (R26, D1). -/
def stackAddress (c : Cfg) (sp : Byte) : Address := c.stackBase + zext16 sp

/-- A taken branch's target: the offset added to the post-fetch PC modulo 2^16 (R150). -/
def branchTarget (postFetch : Address) (rel : Byte) : Address := postFetch + sext16 rel

end Sys2Proof.Machine
end

