-- ==== Sys2Proof/Machine/Ops.lean ====
section
/-! DEFINITION. The named operations every meaning is written with (00_scope.md R9): registers, the program counter and
its fetches, bus accesses, and taking a fault (60_exceptions.md R163). -/

namespace Sys2Proof.Machine

/-- What a step, or an instruction's meaning, answers. -/
abbrev Result := Host.Outcome State Fault Refusal

/-- `x[r]`: read of a general register (R9, R20). -/
def readReg (r : Reg) (s : State) : Byte :=
  match r with
  | .A => s.a
  | .X => s.x
  | .Y => s.y

/-- `x[r] <- v`: write of a general register; all 8 bits are replaced (R9, R20). -/
def writeReg (r : Reg) (v : Byte) (s : State) : State :=
  match r with
  | .A => { s with a := v }
  | .X => { s with x := v }
  | .Y => { s with y := v }

/-- Advance the program counter past `k` fetched bytes, modulo 2^16 (R22 to R24). -/
def advance (k : Nat) (s : State) : State :=
  { s with pc := s.pc + BitVec.ofNat 16 k }

/-- `MemRead(addr, 1)` in a state (R55). -/
def memRead (s : State) (addr : Address) : Byte := busRead s.cfg s.mem addr

/-- `Fetch8()`: the byte at PC, and the state with PC advanced by one (40_step_and_hlt.md R101). -/
def fetch8 (s : State) : Byte × State := (memRead s s.pc, advance 1 s)

/-- Taking a fault, `raise F(info)` (R163): the latch is filled and nothing else changes; `halted` is not set, nothing is
saved, the program counter is not redirected and there is no vector. The writes made earlier in the step, which are
only PC advances, stand: they are already in `s`. There is no return from a fault (R169): only reset empties the
latch (Machine/HostPort.lean). -/
def raise (record : FaultRecord) (s : State) : Result :=
  .next { s with fault := some record }

/-- `MemWrite(ea, 1, v)` and then the rest of the instruction (R9, R56): a rejected write raises InvalidWriteTarget and
cuts the rest. -/
def writeThen (ea : Address) (v : Byte) (s : State) (rest : State → Result) : Result :=
  match busWrite s.cfg s.mem ea v with
  | .ok m => rest { s with mem := m }
  | .invalidWriteTarget => raise (.invalidWriteTarget ea v) s

/-- Load a register and leave the flags alone (R123, R124). -/
def loadReg (r : Reg) (v : Byte) (s : State) : Result :=
  .next (writeReg r v s)

/-- Load a register and write Z and N from the value where `on` says so (R120 to R122). -/
def loadRegFlags (r : Reg) (v : Byte) (on : Bool) (s : State) : Result :=
  .next { writeReg r v s with flags := setZNIf on v s.flags }

/-- Store a register at an effective address (R130 to R135). -/
def storeReg (r : Reg) (ea : Address) (s : State) : Result :=
  writeThen ea (readReg r s) s .next

/-- The common branch rule (R150), in the state whose PC is already the post-fetch PC. -/
def branchIf (cond : Bool) (rel : Byte) (s : State) : Result :=
  .next (if cond then { s with pc := branchTarget s.pc rel } else s)

end Sys2Proof.Machine
end

