-- ==== Sys2Proof/Machine/Branch.lean ====
section
/-! DEFINITION. The four conditional branches (44_branches.md R150 to R154). -/

namespace Sys2Proof.Machine

/-- BEQ (R151): taken when Z = 1. -/
def execBeq (rel : Byte) (s : State) : Result :=
  branchIf s.flags.z rel (advance Row.beq.length s)

/-- BNE (R152): taken when Z = 0. -/
def execBne (rel : Byte) (s : State) : Result :=
  branchIf (!s.flags.z) rel (advance Row.bne.length s)

/-- BPL (R153): taken when N = 0. -/
def execBpl (rel : Byte) (s : State) : Result :=
  branchIf (!s.flags.n) rel (advance Row.bpl.length s)

/-- BMI (R154): taken when N = 1. -/
def execBmi (rel : Byte) (s : State) : Result :=
  branchIf s.flags.n rel (advance Row.bmi.length s)

end Sys2Proof.Machine
end

