-- ==== Sys2Proof/Machine/Control.lean ====
section
/-! DEFINITION. HLT (40_step_and_hlt.md R110). Every meaning takes the state whose PC is the address of the instruction's
opcode byte, and first advances PC past the instruction's bytes (R22, R23, R101). -/

namespace Sys2Proof.Machine

/-- HLT (R110): `halted <- 1`; nothing else changes but PC, left after the HLT byte. -/
def execHlt (s : State) : Result :=
  .next { advance Row.hlt.length s with halted := true }

end Sys2Proof.Machine
end

