-- ==== Sys2Proof/Machine/Load.lean ====
section
/-! DEFINITION. The five load instructions (41_loads.md). -/

namespace Sys2Proof.Machine

/-- LDA immediate (R120): A and then Z and N from the operand. -/
def execLdaImm (imm : Byte) (s : State) : Result :=
  loadRegFlags .A imm true (advance Row.ldaImm.length s)

/-- LDX immediate (R121): Z and N only under `FLAGS_ON_LDX_LDY_IMM`, whose decided value is false (D11, log 9). -/
def execLdxImm (imm : Byte) (s : State) : Result :=
  loadRegFlags .X imm s.cfg.flagsOnLdxLdyImm (advance Row.ldxImm.length s)

/-- LDY immediate (R122), as LDX immediate. -/
def execLdyImm (imm : Byte) (s : State) : Result :=
  loadRegFlags .Y imm s.cfg.flagsOnLdxLdyImm (advance Row.ldyImm.length s)

/-- LDA zero page (R123): flags untouched. -/
def execLdaZp (zp : Byte) (s : State) : Result :=
  loadReg .A (memRead s (zeroPageAddress zp)) (advance Row.ldaZp.length s)

/-- LDA absolute (R124): the byte of whichever region the address falls in; flags untouched. -/
def execLdaAbs (lo hi : Byte) (s : State) : Result :=
  loadReg .A (memRead s (absoluteAddress lo hi)) (advance Row.ldaAbs.length s)

end Sys2Proof.Machine
end

