-- ==== Sys2Proof/Machine/Stack.lean ====
section
/-! DEFINITION. PHA and PLA (43_stack.md), both on `STACK_BASE +16 zext_16(SP)` (D1). -/

namespace Sys2Proof.Machine

/-- PHA (R140): the write uses the old SP and comes first; the decrement comes second and is cut by a fault (D21). -/
def execPha (s : State) : Result :=
  writeThen (stackAddress s.cfg s.sp) s.a (advance Row.pha.length s) fun t => .next { t with sp := t.sp - 1 }

/-- PLA (R141): the increment comes first, the read uses the new SP, and Z and N come from the pulled byte. -/
def execPla (s : State) : Result :=
  let t := { advance Row.pla.length s with sp := s.sp + 1 }
  loadRegFlags .A (memRead t (stackAddress t.cfg t.sp)) true t

end Sys2Proof.Machine
end

