-- ==== Sys2Proof/Machine/Store.lean ====
section
/-! DEFINITION. The six store instructions (42_stores.md): no flag is written, and the one fault possible is
InvalidWriteTarget, raised with PC already at its post-fetch value. -/

namespace Sys2Proof.Machine

/-- STA zero page (R130). -/
def execStaZp (zp : Byte) (s : State) : Result :=
  storeReg .A (zeroPageAddress zp) (advance Row.staZp.length s)

/-- STX zero page (R131). -/
def execStxZp (zp : Byte) (s : State) : Result :=
  storeReg .X (zeroPageAddress zp) (advance Row.stxZp.length s)

/-- STY zero page (R132). -/
def execStyZp (zp : Byte) (s : State) : Result :=
  storeReg .Y (zeroPageAddress zp) (advance Row.styZp.length s)

/-- STA absolute (R133). -/
def execStaAbs (lo hi : Byte) (s : State) : Result :=
  storeReg .A (absoluteAddress lo hi) (advance Row.staAbs.length s)

/-- STX absolute (R134). -/
def execStxAbs (lo hi : Byte) (s : State) : Result :=
  storeReg .X (absoluteAddress lo hi) (advance Row.stxAbs.length s)

/-- STY absolute (R135). -/
def execStyAbs (lo hi : Byte) (s : State) : Result :=
  storeReg .Y (absoluteAddress lo hi) (advance Row.styAbs.length s)

end Sys2Proof.Machine
end

