-- ==== Sys2Proof/Machine/Fetch.lean ====
section
/-! DEFINITION. Fetching an instruction's bytes (40_step_and_hlt.md R100, R101), the fault of an undecodable opcode (R103,
60_exceptions.md R161), and storing an instruction where the next step fetches. -/

namespace Sys2Proof.Machine

/-- The instruction at PC, or none where the opcode byte is undecodable (R100 lines 1 to 3). The bytes come from `Fetch8`
one after another, each PC advance modulo 2^16, so an instruction may straddle 0xFFFF and 0x0000 (R24). DEDUCED (log
17): three bytes are read whatever the length; the decoder ignores those past the instruction, and a read changes
nothing (R58), so a shorter instruction behaves as if they were not read. -/
def fetchInstr (s : State) : Option Instr :=
  let (b0, s1) := fetch8 s
  let (b1, s2) := fetch8 s1
  let (b2, _) := fetch8 s2
  decodeBytes s.cfg.opcodes b0 b1 b2

/-- Line 2 of the step for an undecodable opcode (R100, R103): the PC advance past the opcode byte stands, no operand byte
is fetched, and UnimplementedOpcode records the byte and the address it came from. -/
def undecodable (s : State) : Result :=
  let (op, t) := fetch8 s
  raise (.unimplementedOpcode op (t.pc - 1)) t

/-- An address with a backing store (R50). -/
def backed (c : Cfg) (addr : Address) : Bool :=
  decide (region c addr ≠ .reserved)

/-- Put a byte of a program at an address, as the host's load does; not a bus write (10_state.md R45). -/
def poke (addr : Address) (v : Byte) (s : State) : State :=
  { s with mem := Memory.put s.cfg s.mem addr.toNat v }

/-- Put three bytes at consecutive addresses, modulo 2^16. -/
def pokeThree (addr : Address) (b0 b1 b2 : Byte) (s : State) : State :=
  poke (addr + 2) b2 (poke (addr + 1) b1 (poke addr b0 s))

/-- The launch state (70_reset_and_hazards.md R198) whose next fetch is at its PC, or at 0x0000 where the three bytes at PC
are not all backed: Running, nothing else changed (log 16). -/
def launchable (s : State) : State :=
  let here := backed s.cfg s.pc && backed s.cfg (s.pc + 1) && backed s.cfg (s.pc + 2)
  { s with pc := if here then s.pc else 0, halted := false, fault := none }

end Sys2Proof.Machine
end

