-- ==== Sys2Proof/Machine/Step.lean ====
section
/-! DEFINITION. One step of CORE (40_step_and_hlt.md R100, R102), and the launch state that runs a given instruction
first. -/

namespace Sys2Proof.Machine

/-- One step. It is enabled only in Running (R102); in Halted and in Faulted no step exists and the state is frozen (U10,
log 8), which the model answers with a `Fault` of its own. In Running the instruction at PC is fetched, decoded and
executed, or UnimplementedOpcode is raised (R100). -/
def step (s : State) : Host.Outcome State Fault Refusal :=
  if s.halted then .fault .halted
  else
    match s.fault with
    | some record => .fault (.faulted record)
    | none =>
      match fetchInstr s with
      | some i => exec i s
      | none => undecodable s

/-- `s` with the instruction whose bits are `w`, numbered as the table numbers them, stored where `step` fetches next; bits
at `nbits` and above are 0. A launch state of R198: the host's placing of a program, not a bus write (log 16). -/
def State.withFetchWord (s : State) (nbits w : Nat) : State :=
  let t := launchable s
  pokeThree t.pc (tableByte (w % 2 ^ nbits) 0) (tableByte (w % 2 ^ nbits) 1) (tableByte (w % 2 ^ nbits) 2) t

end Sys2Proof.Machine
end

