-- ==== Sys2Proof/Machine/Assembler.lean ====
section
/-! DEFINITION. The assembler text of 30_encoding.md R90 and R91: what one line of text stands for, and the text of an
instruction. Presentation only (D24, log 20): no step reads it. Text is a list of characters. -/

namespace Sys2Proof.Machine

/-- The mnemonic of each row, upper case (R85, R90). -/
def Row.letters : Row → List Char
  | .hlt => ['H', 'L', 'T']
  | .ldaImm => ['L', 'D', 'A']
  | .ldxImm => ['L', 'D', 'X']
  | .ldyImm => ['L', 'D', 'Y']
  | .ldaZp => ['L', 'D', 'A']
  | .ldaAbs => ['L', 'D', 'A']
  | .staZp => ['S', 'T', 'A']
  | .stxZp => ['S', 'T', 'X']
  | .styZp => ['S', 'T', 'Y']
  | .staAbs => ['S', 'T', 'A']
  | .stxAbs => ['S', 'T', 'X']
  | .styAbs => ['S', 'T', 'Y']
  | .pha => ['P', 'H', 'A']
  | .pla => ['P', 'L', 'A']
  | .beq => ['B', 'E', 'Q']
  | .bne => ['B', 'N', 'E']
  | .bpl => ['B', 'P', 'L']
  | .bmi => ['B', 'M', 'I']

/-- The hexadecimal digits (R90). -/
def hexDigits : List Char :=
  ['0', '1', '2', '3', '4', '5', '6', '7', '8', '9', 'A', 'B', 'C', 'D', 'E', 'F']

/-- A byte as two hexadecimal digits. -/
def hexText (b : Byte) : List Char :=
  [hexDigits.getD (b.toNat / 16) '0', hexDigits.getD (b.toNat % 16) '0']

/-- The byte two hexadecimal digits stand for. -/
def hexValue (high low : Char) : Option Byte :=
  match hexDigits.findIdx? (fun d => d == high), hexDigits.findIdx? (fun d => d == low) with
  | some h, some l => some (BitVec.ofNat 8 (h * 16 + l))
  | _, _ => none

/-- A number below 1000 in decimal, without leading zeros. -/
def decimalText (n : Nat) : List Char :=
  if n < 10 then [hexDigits.getD n '0']
  else if n < 100 then [hexDigits.getD (n / 10) '0', hexDigits.getD (n % 10) '0']
  else [hexDigits.getD (n / 100) '0', hexDigits.getD (n / 10 % 10) '0', hexDigits.getD (n % 10) '0']

/-- The number a non-empty run of decimal digits stands for, read on from `acc`. -/
def decimalFrom (acc : Nat) : List Char → Option Nat
  | [] => some acc
  | c :: cs =>
    match hexDigits.findIdx? (fun d => d == c) with
    | some k => if k < 10 then decimalFrom (acc * 10 + k) cs else none
    | none => none

/-- The number a run of decimal digits stands for. -/
def decimalValue : List Char → Option Nat
  | [] => none
  | c :: cs => decimalFrom 0 (c :: cs)

/-- `rel8` for a distance from the branch's post-fetch PC, `target - (* + 2)`: legal only in -128 to 127 (R90). -/
def relByte (distance : Int) : Option Byte :=
  if -128 ≤ distance ∧ distance ≤ 127 then some (BitVec.ofInt 8 distance) else none

/-- The distance from the post-fetch PC of a branch at `a` to an address, as a signed 16-bit number. DEDUCED (log 20): like
the branch itself (R150) it wraps modulo 2^16. -/
def distanceTo (a target : Address) : Int := (target - (a + 2)).toInt

/-- A label with its address. -/
abbrev Labels := List (List Char × Address)

/-- The operand of a line at address `a`: its addressing mode and operand bytes (R90). The number of hexadecimal digits
selects zero page (two) or absolute (four). -/
def operandOf (labels : Labels) (a : Address) (text : List Char) : Option (Mode × Byte × Byte) :=
  match text with
  | '#' :: '0' :: 'x' :: [h, l] => (hexValue h l).map fun b => (.immediate, b, 0)
  | '0' :: 'x' :: [h, l] => (hexValue h l).map fun b => (.zeroPage, b, 0)
  | '0' :: 'x' :: [h1, h0, l1, l0] =>
    match hexValue h1 h0, hexValue l1 l0 with
    | some hi, some lo => some (.absolute, lo, hi)
    | _, _ => none
  | '*' :: '+' :: ds => ((decimalValue ds).bind fun d => relByte ((d : Int) - 2)).map fun b => (.relative, b, 0)
  | '*' :: '-' :: ds => ((decimalValue ds).bind fun d => relByte (-(d : Int) - 2)).map fun b => (.relative, b, 0)
  | name => ((labels.lookup name).bind fun target => relByte (distanceTo a target)).map fun b => (.relative, b, 0)

/-- The row a mnemonic and an addressing mode name, if there is one: 18 rows and no pseudo-instruction (R85, R91). -/
def rowOf (mnemonic : List Char) (mode : Mode) : Option Row :=
  Row.all.find? fun r => decide (Row.letters r = mnemonic) && decide (r.mode = mode)

/-- The instruction a line of text stands for at address `a`, or none where the line is no instruction (R90). -/
def assembleLine (labels : Labels) (a : Address) (line : List Char) : Option Instr :=
  match line with
  | [c1, c2, c3] => (rowOf [c1, c2, c3] .implied).map fun r => r.build 0 0
  | c1 :: c2 :: c3 :: ' ' :: rest =>
    match operandOf labels a rest with
    | some (mode, b1, b2) => (rowOf [c1, c2, c3] mode).map fun r => r.build b1 b2
    | none => none
  | _ => none

/-- The text of a branch's distance from its own opcode byte, `*+d` or `*-d`. -/
def relativeText (rel : Byte) : List Char :=
  if 0 ≤ signedByte rel + 2 then '*' :: '+' :: decimalText (signedByte rel + 2).toNat
  else '*' :: '-' :: decimalText (-(signedByte rel + 2)).toNat

/-- The operand text of an instruction (R90). -/
def operandText : Instr → List Char
  | .hlt => []
  | .ldaImm imm => [' ', '#', '0', 'x'] ++ hexText imm
  | .ldxImm imm => [' ', '#', '0', 'x'] ++ hexText imm
  | .ldyImm imm => [' ', '#', '0', 'x'] ++ hexText imm
  | .ldaZp zp => [' ', '0', 'x'] ++ hexText zp
  | .ldaAbs lo hi => [' ', '0', 'x'] ++ hexText hi ++ hexText lo
  | .staZp zp => [' ', '0', 'x'] ++ hexText zp
  | .stxZp zp => [' ', '0', 'x'] ++ hexText zp
  | .styZp zp => [' ', '0', 'x'] ++ hexText zp
  | .staAbs lo hi => [' ', '0', 'x'] ++ hexText hi ++ hexText lo
  | .stxAbs lo hi => [' ', '0', 'x'] ++ hexText hi ++ hexText lo
  | .styAbs lo hi => [' ', '0', 'x'] ++ hexText hi ++ hexText lo
  | .pha => []
  | .pla => []
  | .beq rel => ' ' :: relativeText rel
  | .bne rel => ' ' :: relativeText rel
  | .bpl rel => ' ' :: relativeText rel
  | .bmi rel => ' ' :: relativeText rel

/-- The text of an instruction (R90). -/
def instrText (i : Instr) : List Char := Row.letters i.row ++ operandText i

end Sys2Proof.Machine
end

