-- ==== Sys2Proof/Machine/Report.lean ====
section
/-! DEFINITION. What a step reports (40_step_and_hlt.md R104, R105), and free running (R106 to R108). -/

namespace Sys2Proof.Machine

/-- CORE is Running (R102): neither halted nor faulted. -/
def State.running (s : State) : Bool := !s.halted && s.fault.isNone

/-- The next state of an outcome, if it has one. -/
def nextState (r : Result) : Option State :=
  match r with
  | .next s => some s
  | .fault _ => none
  | .refused _ => none

/-- Line 4 of the step (R100, R104): a step that completes reports `CYCLES` of the executed instruction; a step that faults,
or that does not exist, reports no cost. The cost is an output: no rule reads it and no total is kept (R39, R176). -/
def cycleReport (s : State) : Option Nat :=
  match nextState (step s), fetchInstr s with
  | some t, some i =>
    if t.fault.isNone then
      some (Config.cycles { row := i.row, operands := i.operands, pcBefore := s.pc, pcAfter := t.pc })
    else none
  | _, _ => none

/-- Free running for at most `k` steps (R106): steps are made while CORE is Running, and a stopped state is the end of the
run (R108). The bound is the host's step budget and no part of CORE (R107). -/
def runFor : Nat → State → State
  | 0, s => s
  | k + 1, s =>
    match step s with
    | .next t => runFor k t
    | .fault _ => s
    | .refused _ => s

/-- The run from a state ends, within `k` steps, in the stopped state `t` (R106, R108). -/
def endsWithin (k : Nat) (s t : State) : Prop :=
  runFor k s = t ∧ t.running = false

/-- The run from a state is infinite (R107): no budget reaches a stopped state. -/
def runsForever (s : State) : Prop :=
  ∀ k, (runFor k s).running = true

end Sys2Proof.Machine
end

