-- ==== Sys2Proof/Machine/Bus.lean ====
section
/-! DEFINITION. The bus requests of a step, in order (10_state.md R47, 20_memory.md R64, R67). -/

namespace Sys2Proof.Machine

/-- A request of the fetch-decode-execute unit to the bus (R47): one byte read or written. -/
inductive BusRequest where
  | read (addr : Address)
  | write (addr : Address) (data : Byte)
deriving DecidableEq, Repr

/-- The request is a write. -/
def BusRequest.isWrite : BusRequest → Bool
  | .read _ => false
  | .write _ _ => true

/-- The data access of each instruction beyond fetching its own bytes (R64), in the state the step starts in. -/
def dataRequests (i : Instr) (s : State) : List BusRequest :=
  match i with
  | .hlt => []
  | .ldaImm _ => []
  | .ldxImm _ => []
  | .ldyImm _ => []
  | .ldaZp zp => [.read (zeroPageAddress zp)]
  | .ldaAbs lo hi => [.read (absoluteAddress lo hi)]
  | .staZp zp => [.write (zeroPageAddress zp) s.a]
  | .stxZp zp => [.write (zeroPageAddress zp) s.x]
  | .styZp zp => [.write (zeroPageAddress zp) s.y]
  | .staAbs lo hi => [.write (absoluteAddress lo hi) s.a]
  | .stxAbs lo hi => [.write (absoluteAddress lo hi) s.x]
  | .styAbs lo hi => [.write (absoluteAddress lo hi) s.y]
  | .pha => [.write (stackAddress s.cfg s.sp) s.a]
  | .pla => [.read (stackAddress s.cfg (s.sp + 1))]
  | .beq _ => []
  | .bne _ => []
  | .bpl _ => []
  | .bmi _ => []

/-- The `k` byte reads from an address upward, modulo 2^16, with which bytes of the instruction stream are fetched. -/
def fetchRequests : Nat → Address → List BusRequest
  | 0, _ => []
  | k + 1, a => .read a :: fetchRequests k (a + 1)

/-- The requests CORE makes next. In Running they are those of the step (R67): the opcode fetch, the operand fetches low then
high, then the data access; for an undecodable opcode the opcode fetch alone (R103). In Halted and in Faulted there are
none: "no fetch, no state change" (R102). -/
def stepRequests (s : State) : List BusRequest :=
  if s.running then
    match fetchInstr s with
    | some i => fetchRequests i.length s.pc ++ dataRequests i s
    | none => fetchRequests 1 s.pc
  else []

/-- What a request does to memory: a read nothing (R58); a write changes a RAM byte, or is rejected and changes nothing
(R56, R57). -/
def applyRequest (c : Cfg) (m : Memory) : BusRequest → Memory
  | .read _ => m
  | .write addr data =>
    match busWrite c m addr data with
    | .ok m' => m'
    | .invalidWriteTarget => m

end Sys2Proof.Machine
end

