-- ==== Sys2Proof/Machine/HostPort.lean ====
section
/-! DEFINITION. The host's side of the boundary: loading the ROM, reset, and the observation port (10_state.md R45, R46;
70_reset_and_hazards.md R190 to R197; 60_exceptions.md R160, R164). None of it is a step of CORE. -/

namespace Sys2Proof.Machine

/-- The fault code of a record (R160, D9). -/
def FaultRecord.code : FaultRecord → Nat
  | .unimplementedOpcode _ _ => 1
  | .invalidWriteTarget _ _ => 2
  | .startupIOError => 3

/-- The code of the fault latch: 0 means no fault (R160). -/
def State.faultCode (s : State) : Nat :=
  match s.fault with
  | none => 0
  | some record => record.code

/-- Copy image bytes into the ROM region from an address upward (R197). -/
def copyImage (c : Cfg) : Nat → List Byte → Memory → Memory
  | _, [], m => m
  | a, b :: bytes, m => copyImage c (a + 1) bytes (Memory.put c m a b)

/-- What `rom_load` gives: memory with the image in ROM, or the host's StartupIOError (R164). -/
inductive LoadAnswer where
  | loaded (m : Memory)
  | startupIOError
deriving DecidableEq, Repr

/-- `rom_load` (R45, R197): the bytes after the 16-byte header are copied verbatim from `rom[0]` upward, ROM bytes past the
image are 0x00, the header is not interpreted, and a file that does not fit is refused. RAM is as reset leaves it. -/
def loadImage (c : Cfg) (file : List Byte) : LoadAnswer :=
  if c.imageOk file then .loaded (copyImage c c.romBase.toNat (file.drop imageHeaderBytes) Memory.blank)
  else .startupIOError

/-- RAM as reset leaves it: every RAM byte is `RAM_FILL`, every ROM byte kept (R190 step 2, R36). -/
def refillRam (c : Cfg) (m : Memory) : Memory :=
  m.filter fun cell => decide (¬ cell.1 < c.ramSize)

/-- Reset asserted (R45 b, R190 steps 2 to 5): everything takes its reset value except PC. -/
def assertReset (s : State) : State :=
  { s with
    a := s.cfg.resetA
    x := s.cfg.resetX
    y := s.cfg.resetY
    sp := s.cfg.resetSp
    flags := Flags.reset
    halted := false
    fault := none
    mem := refillRam s.cfg s.mem }

/-- Reset released (R45 b, R190 step 6, R191): PC is read from the reset vector, through the bus. -/
def releaseReset (s : State) : State :=
  { s with pc := busReadWord s.cfg s.mem s.cfg.resetVector }

/-- The one reset there is, the same from any state (R190, R192, log 11). -/
def hostReset (s : State) : State := releaseReset (assertReset s)

/-- The state reset leaves with a given ROM in `m` and a given configuration, from no earlier state (R42, R190). -/
def bootState (c : Cfg) (m : Memory) : State :=
  hostReset { State.reset with cfg := c, mem := m }

/-- What starting a machine gives (R196): a Running state, or the host's report that CORE was not started. -/
inductive PowerOn where
  | started (s : State)
  | notStarted (why : FaultRecord)
deriving DecidableEq, Repr

/-- Power-on (R190, R196, R197): the ROM is loaded first, and CORE is never started with an unpopulated ROM. -/
def powerOn (c : Cfg) (file : List Byte) : PowerOn :=
  match loadImage c file with
  | .loaded m => .started (bootState c m)
  | .startupIOError => .notStarted .startupIOError

/-- What the observation port shows (R46): the registers, the flags, the two stop latches and every byte of RAM. The cost of
a completed step is `cycleReport` (Machine/Report.lean). -/
structure Observation where
  a : Byte
  x : Byte
  y : Byte
  pc : Address
  sp : Byte
  flags : Flags
  halted : Bool
  fault : Option FaultRecord
  ram : List Byte
deriving DecidableEq, Repr

/-- Observe a state (R46): it reads the state and changes nothing. -/
def observe (s : State) : Observation where
  a := s.a
  x := s.x
  y := s.y
  pc := s.pc
  sp := s.sp
  flags := s.flags
  halted := s.halted
  fault := s.fault
  ram := (List.range s.cfg.ramSize).map fun k => Memory.get s.cfg s.mem k

end Sys2Proof.Machine
end

