-- ==== Sys2Proof/Safety.lean ====
section
/-! DEFINITION. What counts as a safe run of CORE, and the invariant of its states, in the terms claims use. -/

namespace Sys2Proof.Machine

/-- The bytes at PC, at consecutive addresses modulo 2^16, are the encoding of `i` (30_encoding.md R80). -/
abbrev State.atPc (s : State) (i : Instr) : Prop :=
  (List.range i.length).map (fun k => memRead s (s.pc + BitVec.ofNat 16 k)) = encode s.cfg.opcodes i

/-- The next step of `s` is to execute `i`: CORE is Running, the opcode bytes of its configuration are distinct (R7), and `i`
lies at PC. -/
abbrev State.willRun (s : State) (i : Instr) : Prop :=
  s.running = true ∧ s.cfg.opcodes.distinct ∧ s.atPc i

/-- The invariant of every state a run can be in: memory has its canonical form (and so lists nothing in the reserved
region, which holds no state, R37), and the two stop latches are not both set (R34: `halted` stays 0 when a fault is
latched). It rules out states no run reaches. -/
structure State.Inv (s : State) : Prop where
  memCanonical : Memory.wf s.cfg s.mem
  notBothStopped : s.halted = true → s.fault = none

/-- A normal end (R108): HLT stopped CORE and no fault is latched. -/
def State.endedNormally (s : State) : Prop := s.halted = true ∧ s.fault = none

/-- A run is safe when no state of it has a fault latched: whatever the budget, it is still Running or ended by HLT. -/
def State.safeRun (s : State) : Prop := ∀ k, (runFor k s).fault = none

end Sys2Proof.Machine
end

