-- ==== Sys2Proof/Certificates/Slice0/Obligations.lean ====
section
/-! DEFINITION. The statements about the model, each from the spec's numbered rules. `exec` takes the state whose PC is the
address of the instruction's opcode byte and advances PC itself; `s.willRun i` says that the next step of `s` is to execute
`i` (Safety.lean). Every statement is over every configuration, not over the default one. -/

open Sys2Proof Sys2Proof.Machine

/-! ## Encoding -/

/-- R80 to R86: in any configuration whose 18 opcode bytes are distinct (R7), decoding the encoding of any instruction, with
any operand bytes and whatever follows, gives that instruction back and leaves what follows. -/
def Obligations.DecodeInvertsEncode : Prop :=
  ∀ (o : Opcodes), o.distinct → ∀ (i : Instr) (rest : List Byte), i.wf = true →
    decode o (encode o i ++ rest) = .instr i rest

/-- R80 to R86, the other direction: bytes that decode are the encoding of what they decode to. -/
def Obligations.EncodeInvertsDecode : Prop :=
  ∀ (o : Opcodes) (bytes rest : List Byte) (i : Instr),
    decode o bytes = .instr i rest → bytes = encode o i ++ rest

/-- R86: decoding maps each of the 18 opcode bytes to exactly its row, no two rows share a byte, every other byte is
undecodable, and nothing but the opcode byte decides the row. -/
def Obligations.OpcodeByteDecidesTheRow : Prop :=
  ∀ (o : Opcodes), o.distinct →
    (∀ r, decodeRow o (o.byte r) = some r) ∧
    (∀ r q, o.byte r = o.byte q → r = q) ∧
    (∀ b, (∀ r, o.byte r ≠ b) → decodeRow o b = none) ∧
    (∀ b0 b1 b2, (decodeBytes o b0 b1 b2).map Instr.row = decodeRow o b0)

/-- R87: 238 of the 256 byte values are illegal whatever the distinct opcode bytes; under the default assignment the legal
ones are the 18 listed; operand bytes have no illegal values. The default assignment is the spec's own choice (D5, log 2).
What fetching an illegal byte does is `UndecodableOpcodeFaults`. -/
def Obligations.IllegalOpcodeBytes : Prop :=
  (∀ (o : Opcodes), o.distinct →
    ((List.range 256).filter fun n => (decodeRow o (BitVec.ofNat 8 n)).isNone).length = 238) ∧
  (∀ b : Byte, (decodeRow Opcodes.standard b).isSome = true ↔
    b ∈ ([0x02, 0x10, 0x30, 0x48, 0x68, 0x84, 0x85, 0x86, 0x8C] ++
      [0x8D, 0x8E, 0xA0, 0xA2, 0xA5, 0xA9, 0xAD, 0xD0, 0xF0] : List Byte)) ∧
  (∀ (o : Opcodes) (r : Row) (b1 b2 : Byte), o.distinct →
    decodeBytes o (o.byte r) b1 b2 = some (r.build b1 b2) ∧ (r.build b1 b2).wf = true)

/-- R85: words written out from the table's rows, the first byte lowest, decode to the instructions they stand for. A sanity
check of the default opcode bytes (D5, log 2). -/
def Obligations.TableWordsDecode : Prop :=
  decodeTableWord 8 0x02 = some .hlt ∧
  decodeTableWord 16 0x05A9 = some (.ldaImm 0x05) ∧
  decodeTableWord 24 0x0200AD = some (.ldaAbs 0x00 0x02) ∧
  decodeTableWord 16 0x1086 = some (.stxZp 0x10) ∧
  decodeTableWord 24 0x07FF8C = some (.styAbs 0xFF 0x07) ∧
  decodeTableWord 8 0x48 = some .pha ∧
  decodeTableWord 16 0xFED0 = some (.bne 0xFE) ∧
  decodeTableWord 8 0xEA = none

/-- R84: the value of each operand form: zero page in 0 to 255, absolute `hi8*256 + lo8`, and a relative offset whose 16-bit
pattern is the byte read as signed, modulo 2^16. -/
def Obligations.OperandFormsHaveTheirValues : Prop :=
  (∀ zp : Byte, (zeroPageAddress zp).toNat = zp.toNat) ∧
  (∀ lo hi : Byte, (absoluteAddress lo hi).toNat = hi.toNat * 256 + lo.toNat) ∧
  (∀ rel : Byte, ((sext16 rel).toInt = if rel.toNat < 128 then (rel.toNat : Int) else (rel.toNat : Int) - 256)) ∧
  (∀ (c : Cfg) (sp : Byte), (stackAddress c sp).toNat = (c.stackBase.toNat + sp.toNat) % 2 ^ 16)

/-! ## The step -/

/-- R100: in Running, when the bytes at PC, at addresses modulo 2^16, decode to a well-formed instruction, the step is `exec`
of it at that very state; `exec` itself advances PC past the instruction's bytes. -/
def Obligations.StepRunsTheDecodedInstruction : Prop :=
  ∀ (s : State) (i : Instr) (rest : List Byte), s.running = true → i.wf = true →
    decode s.cfg.opcodes [memRead s s.pc, memRead s (s.pc + 1), memRead s (s.pc + 2)] = .instr i rest →
    step s = exec i s

/-- R80, R100: in Running, with distinct opcode bytes, when the encoding of an instruction lies at PC, across the wrap or not,
the step is `exec` of that instruction, and its length is 1 to 3 bytes. -/
def Obligations.StepRunsTheEncodedInstruction : Prop :=
  ∀ (s : State) (i : Instr), s.willRun i →
    step s = exec i s ∧ (encode s.cfg.opcodes i).length = i.length ∧ 1 ≤ i.length ∧ i.length ≤ 3

/-- R103, R161: in Running, an undecodable opcode at address `a`, wherever it was fetched from, latches UnimplementedOpcode with
the byte and its address and leaves `PC = a + 1` and everything else, `halted` among it, as before the step; the one bus
request is the opcode's fetch. -/
def Obligations.UndecodableOpcodeFaults : Prop :=
  ∀ (s : State), s.running = true → (∀ r, s.cfg.opcodes.byte r ≠ memRead s s.pc) →
    step s = .next { s with pc := s.pc + 1, fault := some (.unimplementedOpcode (memRead s s.pc) s.pc) } ∧
    stepRequests s = [.read s.pc]

/-- R102, R105: a step exists exactly in Running. In Halted and in Faulted there is none, nothing is fetched or accessed on the
bus, and free running stays where it is for ever. The rendering of no step as a stop of the model is log 8. -/
def Obligations.StepExistsExactlyInRunning : Prop :=
  ∀ (s : State), ((∃ t, step s = .next t) ↔ s.running = true) ∧
    (s.running = false → stepRequests s = [] ∧ ∀ k, runFor k s = s)

/-- R104, R105: a step of a Running state either completes, with the latch empty and the cycle cost of the executed
instruction reported, or latches a fault and reports no cost. The arguments of the cost are the model's choice (log 10). -/
def Obligations.StepReportsCostOrFault : Prop :=
  ∀ (s t : State), step s = .next t →
    (∃ i, fetchInstr s = some i ∧ t.fault = none ∧
      cycleReport s = some (Config.cycles ⟨i.row, i.operands, s.pc, t.pc⟩)) ∨
    (t.fault ≠ none ∧ cycleReport s = none)

/-! ## What each instruction does -/

/-- R110: HLT sets the halt latch, leaves PC after the HLT byte and changes nothing else, makes no data access, and no further
step is made. -/
def Obligations.HltHalts : Prop :=
  ∀ (s t : State), t = { s with pc := s.pc + 1, halted := true } →
    exec .hlt s = .next t ∧ (s.willRun .hlt → step s = .next t) ∧ dataRequests .hlt s = [] ∧ ∀ u, step t ≠ .next u

/-- R120: LDA immediate loads A and writes Z and N from the operand, with PC two further; C, I, V and all else unchanged; it
makes no data access. -/
def Obligations.LdaImmediateLoadsAndSetsZN : Prop :=
  ∀ (s t : State) (imm : Byte),
    t = { s with
          a := imm, pc := s.pc + 2,
          flags := { s.flags with z := decide (imm = 0), n := decide (0x80 ≤ imm.toNat) } } →
    exec (.ldaImm imm) s = .next t ∧ (s.willRun (.ldaImm imm) → step s = .next t) ∧
    dataRequests (.ldaImm imm) s = []

/-- R121, R122: LDX and LDY immediate load their register, with PC two further; the flags are written only in a configuration
whose FLAGS_ON_LDX_LDY_IMM is true. That the decided value is false is D11 (log 9). -/
def Obligations.LdxLdyImmediateLoad : Prop :=
  ∀ (s : State) (imm : Byte) (f : Flags),
    f = (if s.cfg.flagsOnLdxLdyImm then
          { s.flags with z := decide (imm = 0), n := decide (0x80 ≤ imm.toNat) } else s.flags) →
    (exec (.ldxImm imm) s = .next { s with x := imm, pc := s.pc + 2, flags := f } ∧
      (s.willRun (.ldxImm imm) → step s = .next { s with x := imm, pc := s.pc + 2, flags := f })) ∧
    (exec (.ldyImm imm) s = .next { s with y := imm, pc := s.pc + 2, flags := f } ∧
      (s.willRun (.ldyImm imm) → step s = .next { s with y := imm, pc := s.pc + 2, flags := f }))

/-- R123, R124: LDA zero page and LDA absolute load the byte at their effective address, in whichever region it is, with PC two
and three further, and leave every flag and all else unchanged; the one data access is the read, and of the reserved region it
gives 0x00. -/
def Obligations.LdaFromMemoryLoads : Prop :=
  ∀ (s : State) (ea : Address),
    (∀ zp : Byte, ea.toNat = zp.toNat →
      exec (.ldaZp zp) s = .next { s with a := memRead s ea, pc := s.pc + 2 } ∧
      (s.willRun (.ldaZp zp) → step s = .next { s with a := memRead s ea, pc := s.pc + 2 }) ∧
      dataRequests (.ldaZp zp) s = [.read ea]) ∧
    (∀ lo hi : Byte, ea.toNat = hi.toNat * 256 + lo.toNat →
      exec (.ldaAbs lo hi) s = .next { s with a := memRead s ea, pc := s.pc + 3 } ∧
      (s.willRun (.ldaAbs lo hi) → step s = .next { s with a := memRead s ea, pc := s.pc + 3 }) ∧
      dataRequests (.ldaAbs lo hi) s = [.read ea]) ∧
    (region s.cfg ea = .reserved → memRead s ea = 0x00)

/-- R130 to R132: the zero-page stores. Their one data access is the write of their register at the zero-page address. In RAM it
stores the byte there, with PC two further; every other address reads as before and nothing else changes. Elsewhere, which a
well-formed configuration excludes, it latches InvalidWriteTarget with the address and the byte, with PC two further, and
nothing else changes. -/
def Obligations.ZeroPageStoresWriteOrFault : Prop :=
  ∀ (s : State) (zp v : Byte) (i : Instr),
    ((i = .staZp zp ∧ v = s.a) ∨ (i = .stxZp zp ∧ v = s.x) ∨ (i = .styZp zp ∧ v = s.y)) →
    dataRequests i s = [.write (zeroPageAddress zp) v] ∧
    (region s.cfg (zeroPageAddress zp) = .ram →
      ∃ t, exec i s = .next t ∧ (s.willRun i → step s = .next t) ∧
        t = { s with pc := s.pc + 2, mem := t.mem } ∧
        ∀ addr, memRead t addr = if addr = zeroPageAddress zp then v else memRead s addr) ∧
    (region s.cfg (zeroPageAddress zp) ≠ .ram →
      ∀ t, t = { s with pc := s.pc + 2, fault := some (.invalidWriteTarget (zeroPageAddress zp) v) } →
        exec i s = .next t ∧ (s.willRun i → step s = .next t))

/-- R133 to R135: the absolute stores. Their one data access is the write of their register at the absolute address. In RAM it
stores the byte there, with PC three further; every other address reads as before and nothing else changes. In ROM and in the
reserved region it latches InvalidWriteTarget with the address and the byte, with PC three further, and nothing else changes. -/
def Obligations.AbsoluteStoresWriteOrFault : Prop :=
  ∀ (s : State) (lo hi v : Byte) (i : Instr),
    ((i = .staAbs lo hi ∧ v = s.a) ∨ (i = .stxAbs lo hi ∧ v = s.x) ∨ (i = .styAbs lo hi ∧ v = s.y)) →
    dataRequests i s = [.write (absoluteAddress lo hi) v] ∧
    (region s.cfg (absoluteAddress lo hi) = .ram →
      ∃ t, exec i s = .next t ∧ (s.willRun i → step s = .next t) ∧
        t = { s with pc := s.pc + 3, mem := t.mem } ∧
        ∀ addr, memRead t addr = if addr = absoluteAddress lo hi then v else memRead s addr) ∧
    (region s.cfg (absoluteAddress lo hi) ≠ .ram →
      ∀ t, t = { s with pc := s.pc + 3, fault := some (.invalidWriteTarget (absoluteAddress lo hi) v) } →
        exec i s = .next t ∧ (s.willRun i → step s = .next t))

/-- R140: PHA. With its stack address in RAM it stores A at the address the old SP designates and then decrements SP modulo 256,
with PC one further; every other address reads as before, no flag is written and nothing else changes. Elsewhere it latches
InvalidWriteTarget with PC one further, and SP is not decremented (D21, log 13). That push and pull share STACK_BASE is D1
(log 5). -/
def Obligations.PhaPushesOrFaults : Prop :=
  ∀ (s : State),
    dataRequests .pha s = [.write (stackAddress s.cfg s.sp) s.a] ∧
    (region s.cfg (stackAddress s.cfg s.sp) = .ram →
      ∃ t, exec .pha s = .next t ∧ (s.willRun .pha → step s = .next t) ∧
        t = { s with pc := s.pc + 1, sp := t.sp, mem := t.mem } ∧
        t.sp.toNat = (s.sp.toNat + 255) % 256 ∧
        ∀ addr, memRead t addr = if addr = stackAddress s.cfg s.sp then s.a else memRead s addr) ∧
    (region s.cfg (stackAddress s.cfg s.sp) ≠ .ram →
      ∀ t, t = { s with pc := s.pc + 1, fault := some (.invalidWriteTarget (stackAddress s.cfg s.sp) s.a) } →
        exec .pha s = .next t ∧ (s.willRun .pha → step s = .next t))

/-- R141: PLA increments SP modulo 256, loads A from the address the new SP designates and writes Z and N from that byte, with
PC one further; memory, C, I, V and all else unchanged; the one data access is the read. -/
def Obligations.PlaPulls : Prop :=
  ∀ (s : State) (sp' v : Byte), sp'.toNat = (s.sp.toNat + 1) % 256 → v = memRead s (stackAddress s.cfg sp') →
    ∀ t, t = { s with
               a := v, sp := sp', pc := s.pc + 1,
               flags := { s.flags with z := decide (v = 0), n := decide (0x80 ≤ v.toNat) } } →
      exec .pla s = .next t ∧ (s.willRun .pla → step s = .next t) ∧
      dataRequests .pla s = [.read (stackAddress s.cfg sp')]

/-- R142: PHA and then PLA, with the stack address in RAM, end with A and SP as before, the stack byte holding A, and Z and N
recomputed from A; nothing else has changed but PC. -/
def Obligations.PhaThenPlaRestores : Prop :=
  ∀ (s : State), region s.cfg (stackAddress s.cfg s.sp) = .ram →
    ∃ t u, exec .pha s = .next t ∧ exec .pla t = .next u ∧
      u = { s with
            pc := s.pc + 2, mem := u.mem,
            flags := { s.flags with z := decide (s.a = 0), n := decide (0x80 ≤ s.a.toNat) } } ∧
      ∀ addr, memRead u addr = if addr = stackAddress s.cfg s.sp then s.a else memRead s addr

/-- R150 to R154: BEQ is taken when Z = 1, BNE when Z = 0, BPL when N = 0, BMI when N = 1. Not taken, PC is the address after the
operand byte; taken, it is that plus the byte read as signed, modulo 2^16. Nothing but PC changes; no data access is made. -/
def Obligations.BranchesFollowTheirFlag : Prop :=
  ∀ (s : State) (rel : Byte) (i : Instr) (taken : Bool),
    ((i = .beq rel ∧ taken = s.flags.z) ∨ (i = .bne rel ∧ taken = !s.flags.z) ∨
     (i = .bpl rel ∧ taken = !s.flags.n) ∨ (i = .bmi rel ∧ taken = s.flags.n)) →
    dataRequests i s = [] ∧
    ∃ t, exec i s = .next t ∧ (s.willRun i → step s = .next t) ∧ t = { s with pc := t.pc } ∧
      (taken = false → t.pc = s.pc + 2) ∧
      (taken = true → (t.pc.toNat : Int) =
        ((s.pc.toNat : Int) + 2 + (if rel.toNat < 128 then (rel.toNat : Int) else (rel.toNat : Int) - 256)) % 65536)

/-- R152, R107: BNE with operand 0xFE and Z = 0 jumps to its own opcode byte, so the step leaves the whole state as it was, and
the run from it is infinite. -/
def Obligations.BneToItselfNeverEnds : Prop :=
  ∀ (s : State), s.willRun (.bne 0xFE) → s.flags.z = false → step s = .next s ∧ runsForever s

/-! ## Frames and rules over all instructions -/

/-- R21, R27, R33: a step changes A only by executing LDA or PLA, X only by LDX, Y only by LDY, SP only by PHA or PLA, and the
halt latch only by HLT, which sets it. -/
def Obligations.WhoWritesEachRegister : Prop :=
  ∀ (s t : State), step s = .next t →
    (t.a ≠ s.a → ∃ i, fetchInstr s = some i ∧ i.row ∈ [Row.ldaImm, .ldaZp, .ldaAbs, .pla]) ∧
    (t.x ≠ s.x → ∃ i, fetchInstr s = some i ∧ i.row = .ldxImm) ∧
    (t.y ≠ s.y → ∃ i, fetchInstr s = some i ∧ i.row = .ldyImm) ∧
    (t.sp ≠ s.sp → ∃ i, fetchInstr s = some i ∧ i.row ∈ [Row.pha, .pla]) ∧
    (t.halted = true ↔ fetchInstr s = some .hlt)

/-- R29, R121, R122: a step never changes C, I or V, and changes Z or N only by executing LDA immediate or PLA, or LDX or LDY
immediate in a configuration whose FLAGS_ON_LDX_LDY_IMM is true. That the decided value is false is D11 (log 9). -/
def Obligations.WhoWritesTheFlags : Prop :=
  ∀ (s t : State), step s = .next t →
    t.flags.c = s.flags.c ∧ t.flags.i = s.flags.i ∧ t.flags.v = s.flags.v ∧
    (t.flags ≠ s.flags → ∃ i, fetchInstr s = some i ∧
      (i.row ∈ [Row.ldaImm, .pla] ∨ (s.cfg.flagsOnLdxLdyImm = true ∧ i.row ∈ [Row.ldxImm, .ldyImm])))

/-- R30: after `SetZN(v)`, Z is 1 exactly when v is 0, N exactly when v is at least 0x80, never both, and C, I and V are as
before. -/
def Obligations.SetZNComputesBothFlags : Prop :=
  ∀ (v : Byte) (f : Flags),
    ((setZN v f).z = true ↔ v.toNat = 0) ∧ ((setZN v f).n = true ↔ 0x80 ≤ v.toNat) ∧
    ¬((setZN v f).z = true ∧ (setZN v f).n = true) ∧
    (setZN v f).c = f.c ∧ (setZN v f).i = f.i ∧ (setZN v f).v = f.v

/-- R64, the frame of memory for the forms that store nothing: HLT, the loads, PLA and the branches. Whenever `exec` of one
answers a next state, every address reads as before, and so do the fault latch and the configuration. -/
def Obligations.NonStoringFormsLeaveMemory : Prop :=
  ∀ (i : Instr) (s t : State),
    i.row ∉ [Row.staZp, .stxZp, .styZp, .staAbs, .stxAbs, .styAbs, .pha] →
    exec i s = .next t →
    (∀ addr, memRead t addr = memRead s addr) ∧ t.fault = s.fault ∧ t.cfg = s.cfg

/-- R64, the frame of the six stores and PHA. Whenever `exec` of one answers a next state, every address but the one stored to
reads as before; A, X, Y, the flags, the halt latch and the configuration are unchanged, and SP but for PHA. -/
def Obligations.StoringFormsFrame : Prop :=
  ∀ (i : Instr) (s t : State) (zp lo hi : Byte) (ea : Address),
    (((i = .staZp zp ∨ i = .stxZp zp ∨ i = .styZp zp) ∧ ea = zeroPageAddress zp) ∨
     ((i = .staAbs lo hi ∨ i = .stxAbs lo hi ∨ i = .styAbs lo hi) ∧ ea = absoluteAddress lo hi) ∨
     (i = .pha ∧ ea = stackAddress s.cfg s.sp)) →
    exec i s = .next t →
    (∀ addr, addr ≠ ea → memRead t addr = memRead s addr) ∧
    t.a = s.a ∧ t.x = s.x ∧ t.y = s.y ∧ t.flags = s.flags ∧ t.halted = s.halted ∧ t.cfg = s.cfg ∧
    (i ≠ .pha → t.sp = s.sp)

/-- R23: where each instruction leaves PC, by its addressing mode; an undecodable opcode leaves it one further. -/
def Obligations.PcAfterEachStep : Prop :=
  ∀ (s t : State), step s = .next t →
    (fetchInstr s = none → t.pc = s.pc + 1) ∧
    (∀ i, fetchInstr s = some i →
      (i.row.mode = .implied → t.pc = s.pc + 1) ∧
      (i.row.mode = .immediate ∨ i.row.mode = .zeroPage → t.pc = s.pc + 2) ∧
      (i.row.mode = .absolute → t.pc = s.pc + 3) ∧
      (∀ rel, i = .beq rel ∨ i = .bne rel ∨ i = .bpl rel ∨ i = .bmi rel →
        t.pc = s.pc + 2 ∨ t.pc = s.pc + 2 + sext16 rel))

/-- R173, R29: C, I and V have no effect on anything: with any other values of the three the same step is made, to the same
next state but for those three. -/
def Obligations.InertFlagsHaveNoEffect : Prop :=
  ∀ (s t : State) (c i v : Bool), step s = .next t →
    step { s with flags := { s.flags with c := c, i := i, v := v } } =
      .next { t with flags := { t.flags with c := c, i := i, v := v } }

/-- R21, the read side: A is read by STA and PHA alone, X by STX alone, Y by STY alone. When the executed instruction neither
reads nor writes the register, its value has no effect on the rest of the step and is carried over. -/
def Obligations.RegistersReadOnlyByTheirStores : Prop :=
  ∀ (s t : State) (i : Instr) (v : Byte), step s = .next t → fetchInstr s = some i →
    (i.row ∉ [Row.staZp, .staAbs, .pha, .ldaImm, .ldaZp, .ldaAbs, .pla] →
      step { s with a := v } = .next { t with a := v }) ∧
    (i.row ∉ [Row.stxZp, .stxAbs, .ldxImm] → step { s with x := v } = .next { t with x := v }) ∧
    (i.row ∉ [Row.styZp, .styAbs, .ldyImm] → step { s with y := v } = .next { t with y := v })

/-! ## Faults -/

/-- R163, R167: a step that latches a fault changes nothing but the latch and PC, which is past the bytes fetched: one for an
undecodable opcode, the instruction's length otherwise. `halted` is not set. The latch is D8 (log 7). -/
def Obligations.FaultsArePrecise : Prop :=
  ∀ (s t : State) (record : FaultRecord), step s = .next t → t.fault = some record →
    t = { s with pc := t.pc, fault := some record } ∧
    ((fetchInstr s = none ∧ t.pc = s.pc + 1) ∨
      ∃ i, fetchInstr s = some i ∧ t.pc = s.pc + BitVec.ofNat 16 i.length) ∧
    t.halted = false

/-- R160 to R164, R170: which steps latch which fault. UnimplementedOpcode comes from an undecodable byte at PC and records both;
InvalidWriteTarget comes from a store or PHA outside RAM; no step raises StartupIOError; any other step faults never. -/
def Obligations.FaultsHaveTheirCauses : Prop :=
  ∀ (s t : State), step s = .next t →
    (∀ op addr, t.fault = some (.unimplementedOpcode op addr) →
      fetchInstr s = none ∧ addr = s.pc ∧ op = memRead s s.pc) ∧
    (∀ addr v, t.fault = some (.invalidWriteTarget addr v) → region s.cfg addr ≠ .ram ∧
      ∃ i, fetchInstr s = some i ∧ dataRequests i s = [.write addr v]) ∧
    t.fault ≠ some .startupIOError ∧
    (∀ i, fetchInstr s = some i →
      i.row ∉ [Row.staZp, .stxZp, .styZp, .staAbs, .stxAbs, .styAbs, .pha] → t.fault = none)

/-- R162: in a well-formed configuration only the three absolute stores can raise InvalidWriteTarget, and the zero page and the
stack page are RAM. It says nothing of UnimplementedOpcode, which an undecodable opcode raises there too (R161). -/
def Obligations.OnlyAbsoluteStoresCanMissRam : Prop :=
  ∀ (s : State), s.cfg.wf →
    (∀ b : Byte, region s.cfg (zeroPageAddress b) = .ram ∧ region s.cfg (stackAddress s.cfg b) = .ram) ∧
    (∀ t addr v, step s = .next t → t.fault = some (.invalidWriteTarget addr v) →
      ∃ lo hi, addr = absoluteAddress lo hi ∧
        ((fetchInstr s = some (.staAbs lo hi) ∧ v = s.a) ∨ (fetchInstr s = some (.stxAbs lo hi) ∧ v = s.x) ∨
         (fetchInstr s = some (.styAbs lo hi) ∧ v = s.y)))

/-! ## Memory -/

/-- R50, R51: the regions by address; in a well-formed configuration they lie in the order RAM, RESERVED, ROM, and every ROM
address has a ROM byte. -/
def Obligations.AddressMapHasThreeRegions : Prop :=
  ∀ (c : Cfg) (addr : Address),
    (region c addr = .ram ↔ addr.toNat < c.ramSize) ∧
    (region c addr = .rom ↔ c.ramSize ≤ addr.toNat ∧ c.romBase.toNat ≤ addr.toNat) ∧
    (region c addr = .reserved ↔ c.ramSize ≤ addr.toNat ∧ addr.toNat < c.romBase.toNat) ∧
    (c.wf → (region c addr = .rom ↔ c.romBase.toNat ≤ addr.toNat) ∧
      (region c addr = .rom → addr.toNat - c.romBase.toNat < c.romSize))

/-- R55 to R57: a write is accepted exactly in RAM; then that address reads the byte written and every other address reads as
before; a read of the reserved region is 0x00, and of RAM nothing has written, RAM_FILL. -/
def Obligations.ReadsSeeWrites : Prop :=
  (∀ (c : Cfg) (m : Memory) (addr : Address) (v : Byte),
    (region c addr = .ram → ∃ m', busWrite c m addr v = .ok m' ∧
      ∀ b, busRead c m' b = if b = addr then v else busRead c m b) ∧
    (region c addr ≠ .ram → busWrite c m addr v = .invalidWriteTarget) ∧
    (region c addr = .reserved → busRead c m addr = 0x00)) ∧
  (∀ (c : Cfg) (addr : Address), region c addr = .ram → busRead c Memory.blank addr = c.ramFill)

/-- R60: a 16-bit value is two byte reads, the byte at the lower address the low byte, the second address modulo 2^16. -/
def Obligations.WordsAreLittleEndian : Prop :=
  ∀ (c : Cfg) (m : Memory) (addr next : Address), next.toNat = (addr.toNat + 1) % 2 ^ 16 →
    (busReadWord c m addr).toNat = (busRead c m next).toNat * 256 + (busRead c m addr).toNat

/-- The model's memory is canonical (log 15): two canonical memories that read alike at every address are the same list. -/
def Obligations.CanonicalMemoriesAreEqual : Prop :=
  ∀ (c : Cfg) (m m' : Memory), Memory.wf c m → Memory.wf c m' →
    (∀ addr, busRead c m addr = busRead c m' addr) → m = m'

/-- R47, R64, R67: a step makes at most four bus requests and at most one write, and memory after it is memory before it with
those requests applied in order. -/
def Obligations.MemoryFollowsTheBusRequests : Prop :=
  ∀ (s t : State), step s = .next t →
    (stepRequests s).length ≤ 4 ∧
    t.mem = (stepRequests s).foldl (applyRequest s.cfg) s.mem ∧
    ((stepRequests s).filter BusRequest.isWrite).length ≤ 1

/-- R70: a byte stored to RAM is what the very next fetch from that address gives, so code in RAM may modify itself. -/
def Obligations.FetchSeesTheStoredByte : Prop :=
  ∀ (i : Instr) (s t : State) (ea : Address) (v : Byte),
    dataRequests i s = [.write ea v] → region s.cfg ea = .ram → exec i s = .next t →
    (fetch8 { t with pc := ea }).1 = v ∧
    ∀ r, s.cfg.opcodes.distinct → v = s.cfg.opcodes.byte r →
      ∃ b1 b2, fetchInstr { t with pc := ea } = some (r.build b1 b2)

/-- R36, R40: over any run the configuration and every byte outside RAM, the ROM among them, are what they were at its start. -/
def Obligations.RomNeverChangesDuringARun : Prop :=
  ∀ (s : State) (k : Nat), (runFor k s).cfg = s.cfg ∧
    ∀ addr, region s.cfg addr ≠ .ram → memRead (runFor k s) addr = memRead s addr

/-! ## Invariants -/

/-- The state right after reset meets the invariant: memory is canonical and the two stop latches are not both set. -/
def Obligations.ResetMeetsTheInvariant : Prop := State.reset.Inv

/-- Every started machine meets the invariant, whatever the well-formed configuration and the image. -/
def Obligations.PowerOnMeetsTheInvariant : Prop :=
  ∀ (c : Cfg) (file : List Byte) (s : State), c.wf → powerOn c file = .started s → s.Inv

/-- R33, R34, R37: every step keeps the invariant, from every state that meets it: memory stays canonical, so nothing is ever
stored in the reserved region or outside the address space, and `halted` and the fault latch are never both set. -/
def Obligations.StepKeepsTheInvariant : Prop :=
  ∀ (s t : State), s.Inv → step s = .next t → t.Inv

/-! ## Reset and running -/

/-- R42, R190, R191: reset, from any state: A, X, Y and SP take the configuration's OPEN values, the flags are 0 0 1 0 0, the stop
latches are empty, every RAM byte is RAM_FILL, every other byte is kept, and PC is the little-endian word at RESET_VECTOR. -/
def Obligations.ResetLeavesTheSpecifiedState : Prop :=
  ∀ (s t : State), t = hostReset s →
    t.cfg = s.cfg ∧ t.a = s.cfg.resetA ∧ t.x = s.cfg.resetX ∧ t.y = s.cfg.resetY ∧ t.sp = s.cfg.resetSp ∧
    t.flags = ⟨false, false, true, false, false⟩ ∧ t.running = true ∧
    (∀ addr, memRead t addr = if region s.cfg addr = .ram then s.cfg.ramFill else memRead s addr) ∧
    t.pc.toNat = (memRead t (s.cfg.resetVector + 1)).toNat * 256 + (memRead t s.cfg.resetVector).toNat

/-- R190, R196, R197: power-on with a well-formed configuration. A file without a whole header or too long for the ROM is a
StartupIOError and CORE is not started; any other is copied from `rom[0]` upward, past its 16 header bytes, with 0x00 after
it, and CORE is started Running with PC read from the vector in that ROM. The two refusals are D15 (log 12). -/
def Obligations.PowerOnLoadsTheImage : Prop :=
  ∀ (c : Cfg) (file : List Byte), c.wf →
    (¬ c.imageOk file → powerOn c file = .notStarted .startupIOError) ∧
    (c.imageOk file → ∃ s, powerOn c file = .started s ∧ s.running = true ∧ s.cfg = c ∧
      (∀ addr, region c addr = .ram → memRead s addr = c.ramFill) ∧
      (∀ k, k < c.romSize → memRead s (BitVec.ofNat 16 (c.romBase.toNat + k)) = file.getD (16 + k) 0) ∧
      s.pc = busReadWord c s.mem c.resetVector)

/-- The model's reset state is reset of the default configuration with no image, and its first step meets RAM's fill byte: vector
RS2 of the spec. The OPEN register values in it are the model's choice (log 6), and nothing is said of them. -/
def Obligations.ResetStateIsBootWithoutImage : Prop :=
  State.reset = bootState Cfg.pNes Memory.blank ∧ State.reset.pc = 0x0000 ∧
  State.reset.flags = ⟨false, false, true, false, false⟩ ∧
  step State.reset = .next { State.reset with pc := 0x0001, fault := some (.unimplementedOpcode 0xFF 0x0000) }

/-- R106, R108: a run ends at its first stopped state: once free running has reached one, a longer budget changes nothing, and a
smaller budget that also reached one reached the same. -/
def Obligations.RunEndsAtItsFirstStop : Prop :=
  ∀ (s t u : State) (j k : Nat), endsWithin k s t →
    endsWithin (k + j) s t ∧ (endsWithin j s u → u = t)

/-- R46: the observation port shows the registers, the flags, the two stop latches and every RAM byte at its address. -/
def Obligations.ObservationShowsAllOfRam : Prop :=
  ∀ (s : State) (addr : Address), region s.cfg addr = .ram →
    (observe s).ram[addr.toNat]? = some (memRead s addr) ∧ (observe s).ram.length = s.cfg.ramSize ∧
    (observe s).a = s.a ∧ (observe s).x = s.x ∧ (observe s).y = s.y ∧ (observe s).pc = s.pc ∧
    (observe s).sp = s.sp ∧ (observe s).flags = s.flags ∧ (observe s).halted = s.halted ∧ (observe s).fault = s.fault

/-! ## Assembler text -/

/-- R90: the text of every instruction assembles back to it at any address, whatever the labels; and the byte a label gives a
branch takes the branch to the label's address. The label arithmetic modulo 2^16 is the model's reading (log 20). -/
def Obligations.TextAssemblesBack : Prop :=
  (∀ (labels : Labels) (a : Address) (i : Instr), assembleLine labels a (instrText i) = some i) ∧
  (∀ (a target : Address) (rel : Byte), relByte (distanceTo a target) = some rel →
    branchTarget (a + 2) rel = target)
end

