-- ==== Sys2Proof/Laws/Decode.lean ====
section
/-! SUPPORT. The small lemmas of the table, the decoder and the encoder. -/

namespace Sys2Proof

/-- Every row is in the table. -/
theorem Row.mem_all (r : Row) : r ∈ Row.all := by
  cases r <;> decide

/-- The listing of the opcode bytes is the listing of the rows' bytes, in the same order. -/
theorem Opcodes.toList_eq (o : Opcodes) : o.toList = Row.all.map o.byte := rfl

/-- Every instruction is well formed: operand bytes have no illegal values (R87). -/
theorem Instr.wf_always (i : Instr) : i.wf = true := by
  simp only [Instr.wf, List.all_eq_true, decide_eq_true_eq]
  intro b _
  have := b.isLt
  omega

/-- The row a byte decodes to has that byte. -/
theorem decodeRow_byte {o : Opcodes} {b : Byte} {r : Row} (h : decodeRow o b = some r) : o.byte r = b := by
  simpa using List.find?_some h

/-- A byte is undecodable exactly when no row has it. -/
theorem decodeRow_eq_none_iff {o : Opcodes} {b : Byte} : decodeRow o b = none ↔ ∀ r, o.byte r ≠ b := by
  simp [decodeRow, Row.mem_all]

/-- Building an instruction keeps its row. -/
@[simp] theorem Row.row_build (r : Row) (b1 b2 : Byte) : (r.build b1 b2).row = r := by
  cases r <;> rfl

/-- An instruction is built back from its row and its operand bytes. -/
theorem Instr.build_operands (i : Instr) : i.row.build (i.operands.getD 0 0) (i.operands.getD 1 0) = i := by
  cases i <;> rfl

/-- An instruction has as many operand bytes as its format says (R81 to R83). -/
theorem Instr.operands_length (i : Instr) : i.operands.length = i.row.mode.operandBytes := by
  cases i <;> rfl

/-- The operand bytes are the fields of the instruction. -/
theorem Instr.operands_eq_fields (i : Instr) : i.operands = i.fields := by
  cases i <;> rfl

end Sys2Proof
end

