-- ==== Sys2Proof/Laws/Memory.lean ====
section
/-! SUPPORT. What the memory operations do: reading after storing, and that each keeps the canonical form. -/

namespace Sys2Proof.Machine

namespace Memory

theorem lookup_insert (m : Memory) (a b : Nat) (v : Byte) :
    lookup (insert a v m) b = if b = a then some v else lookup m b := by
  induction m with
  | nil => simp [insert, lookup, eq_comm]
  | cons cell m ih =>
    obtain ⟨k, w⟩ := cell
    by_cases h : b = a
    · subst h
      by_cases hlt : b < k
      · simp [insert, lookup, hlt]
      · by_cases hk : b = k
        · simp [insert, lookup, hk]
        · simp [insert, lookup, hlt, hk, Ne.symm hk, ih]
    · by_cases hlt : a < k
      · simp [insert, lookup, hlt, h, Ne.symm h]
      · by_cases hk : a = k
        · subst hk; simp [insert, lookup, h, Ne.symm h]
        · simp [insert, lookup, hlt, hk, ih, h]

theorem lookup_erase (m : Memory) (a b : Nat) :
    lookup (erase a m) b = if b = a then none else lookup m b := by
  induction m with
  | nil => simp [erase, lookup]
  | cons cell m ih =>
    obtain ⟨k, w⟩ := cell
    by_cases hk : k = a
    · subst hk
      by_cases h : b = k
      · subst h; simpa [erase] using ih
      · simp [erase, ih, h, lookup, Ne.symm h]
    · by_cases h : b = a
      · subst h; simp [erase, hk, lookup, ih]
      · simp [erase, hk, lookup, ih, h]

/-- A stored byte is read back, and every other address reads as before; of any list, canonical or not. -/
theorem get_put (c : Cfg) (m : Memory) (a b : Nat) (v : Byte) :
    get c (put c m a v) b = if b = a then v else get c m b := by
  unfold get put
  split
  · rename_i hv
    rw [lookup_erase]
    by_cases h : b = a <;> simp [h, hv]
  · rw [lookup_insert]
    by_cases h : b = a <;> simp [h]

theorem mem_insert {m : Memory} {a : Nat} {v : Byte} {cell : Host.Cell} (h : cell ∈ insert a v m) :
    cell = (a, v) ∨ cell ∈ m := by
  induction m with
  | nil => simpa [insert] using h
  | cons k m ih =>
    simp only [insert] at h
    split at h
    · simpa using h
    · split at h
      · rcases List.mem_cons.1 h with h | h <;> simp [h]
      · rcases List.mem_cons.1 h with h | h
        · simp [h]
        · rcases ih h with h | h <;> simp [h]

theorem mem_erase {m : Memory} {a : Nat} {cell : Host.Cell} (h : cell ∈ erase a m) : cell ∈ m := by
  induction m with
  | nil => simp [erase] at h
  | cons k m ih =>
    simp only [erase] at h
    split at h
    · exact List.mem_cons_of_mem _ (ih h)
    · rcases List.mem_cons.1 h with h | h
      · simp [h]
      · exact List.mem_cons_of_mem _ (ih h)

theorem insert_rising {m : Memory} (a : Nat) (v : Byte) (h : m.Pairwise fun p q => p.1 < q.1) :
    (insert a v m).Pairwise fun p q => p.1 < q.1 := by
  induction m with
  | nil => simp [insert]
  | cons k m ih =>
    obtain ⟨hk, hm⟩ := List.pairwise_cons.1 h
    simp only [insert]
    split
    · rename_i hak
      refine List.pairwise_cons.2 ⟨fun q hq => ?_, h⟩
      rcases List.mem_cons.1 hq with rfl | hq
      · exact hak
      · exact Nat.lt_trans hak (hk q hq)
    · split
      · rename_i hak
        exact List.pairwise_cons.2 ⟨fun q hq => by simpa [hak] using hk q hq, hm⟩
      · rename_i hlt hne
        refine List.pairwise_cons.2 ⟨fun q hq => ?_, ih hm⟩
        rcases mem_insert hq with rfl | hq
        · show k.1 < a
          omega
        · exact hk q hq

theorem erase_rising {m : Memory} (a : Nat) (h : m.Pairwise fun p q => p.1 < q.1) :
    (erase a m).Pairwise fun p q => p.1 < q.1 := by
  induction m with
  | nil => simp [erase]
  | cons k m ih =>
    obtain ⟨hk, hm⟩ := List.pairwise_cons.1 h
    simp only [erase]
    split
    · exact ih hm
    · exact List.pairwise_cons.2 ⟨fun q hq => hk q (mem_erase hq), ih hm⟩

/-- Storing at an address with a backing store keeps the canonical form. -/
theorem put_wf {c : Cfg} {m : Memory} (h : wf c m) {addr : Address} (hr : region c addr ≠ .reserved) (v : Byte) :
    wf c (put c m addr.toNat v) := by
  unfold put
  split
  · exact ⟨erase_rising _ h.1, fun cell hc => h.2 cell (mem_erase hc)⟩
  · rename_i hv
    refine ⟨insert_rising _ _ h.1, fun cell hc => ?_⟩
    rcases mem_insert hc with rfl | hc
    · exact ⟨addr.isLt, by simpa using hr, hv⟩
    · exact h.2 cell hc

/-- Memory with nothing listed is canonical. -/
theorem blank_wf (c : Cfg) : wf c blank := by
  simp [wf, blank]

/-- Reset's refill of RAM keeps the canonical form. -/
theorem refillRam_wf {c : Cfg} {m : Memory} (h : wf c m) : wf c (refillRam c m) :=
  ⟨h.1.filter _, fun cell hc => h.2 cell (List.mem_of_mem_filter hc)⟩

/-- The image copy keeps the canonical form, as long as it stays within the address space. -/
theorem copyImage_wf {c : Cfg} (bytes : List Byte) {m : Memory} {a : Nat} (h : wf c m) (ha : c.romBase.toNat ≤ a)
    (hb : a + bytes.length ≤ 2 ^ 16) : wf c (copyImage c a bytes m) := by
  induction bytes generalizing m a with
  | nil => exact h
  | cons b bytes ih =>
    simp only [List.length_cons] at hb
    have hlt : a < 2 ^ 16 := by omega
    have hto : (BitVec.ofNat 16 a).toNat = a := by simp only [BitVec.toNat_ofNat]; omega
    have hr : region c (BitVec.ofNat 16 a) ≠ .reserved := by
      unfold region
      rw [hto]
      split
      · simp
      · simp
    have := put_wf h hr b
    rw [hto] at this
    exact ih this (by omega) (by omega)

/-- What the image copy leaves at each address. -/
theorem get_copyImage (c : Cfg) (bytes : List Byte) (m : Memory) (a k : Nat) :
    get c (copyImage c a bytes m) k =
      if a ≤ k ∧ k < a + bytes.length then bytes.getD (k - a) 0 else get c m k := by
  induction bytes generalizing m a with
  | nil =>
    have : ¬ (a ≤ k ∧ k < a + ([] : List Byte).length) := by simp
    rw [if_neg this]; rfl
  | cons b bytes ih =>
    rw [copyImage, ih, get_put]
    simp only [List.length_cons]
    by_cases hk : k = a
    · subst hk; simp
    · by_cases h₁ : a + 1 ≤ k ∧ k < a + 1 + bytes.length
      · rw [if_pos h₁, if_pos (by omega)]
        have : k - a = (k - (a + 1)) + 1 := by omega
        rw [this, List.getD_cons_succ]
      · rw [if_neg h₁, if_neg hk, if_neg (by omega)]

theorem lookup_refillRam (c : Cfg) (m : Memory) (a : Nat) :
    lookup (refillRam c m) a = if a < c.ramSize then none else lookup m a := by
  induction m with
  | nil => simp [refillRam, lookup]
  | cons cell m ih =>
    obtain ⟨k, w⟩ := cell
    have ih' : lookup (List.filter (fun cell => decide (¬ cell.1 < c.ramSize)) m) a =
      if a < c.ramSize then none else lookup m a := ih
    unfold refillRam
    rw [List.filter_cons]
    by_cases hk : k < c.ramSize
    · rw [if_neg (by simpa using hk), ih']
      by_cases ha : a < c.ramSize
      · simp [ha]
      · have : k ≠ a := by omega
        simp [ha, lookup, this]
    · rw [if_pos (by simpa using hk)]
      simp only [lookup, ih']
      by_cases hka : k = a
      · subst hka; simp [hk]
      · simp [hka]

/-- After the refill every RAM byte is `RAM_FILL` and every other byte is kept (R190 step 2). -/
theorem get_refillRam (c : Cfg) (m : Memory) (a : Nat) :
    get c (refillRam c m) a = if a < c.ramSize then c.ramFill else get c m a := by
  unfold get
  rw [lookup_refillRam]
  by_cases h : a < c.ramSize <;> simp [h, unlisted]

end Memory

/-- The three regions by address (R50). -/
theorem region_eq_ram_iff (c : Cfg) (addr : Address) : region c addr = .ram ↔ addr.toNat < c.ramSize := by
  unfold region
  split
  · simp [*]
  · split <;> simp [*]

theorem region_eq_rom_iff (c : Cfg) (addr : Address) :
    region c addr = .rom ↔ c.ramSize ≤ addr.toNat ∧ c.romBase.toNat ≤ addr.toNat := by
  unfold region
  split
  · simp; omega
  · split <;> simp <;> omega

/-- An accepted write: the bus answers with the byte stored. -/
theorem busWrite_ram {c : Cfg} {addr : Address} (h : region c addr = .ram) (m : Memory) (v : Byte) :
    busWrite c m addr v = .ok (Memory.put c m addr.toNat v) := by
  simp [busWrite, h]

/-- A rejected write (R56). -/
theorem busWrite_not_ram {c : Cfg} {addr : Address} (h : region c addr ≠ .ram) (m : Memory) (v : Byte) :
    busWrite c m addr v = .invalidWriteTarget := by
  unfold busWrite
  cases hr : region c addr <;> simp_all

/-- Everything an accepted write can be. -/
theorem busWrite_ok_iff {c : Cfg} {m m' : Memory} {addr : Address} {v : Byte} :
    busWrite c m addr v = .ok m' ↔ region c addr = .ram ∧ m' = Memory.put c m addr.toNat v := by
  by_cases h : region c addr = .ram
  · simp [busWrite_ram h, h, eq_comm]
  · simp [busWrite_not_ram h, h]

/-- Reading an address after a byte was stored at one that is not in the reserved region. -/
theorem busRead_put (c : Cfg) (m : Memory) (ea addr : Address) (v : Byte) (h : region c ea ≠ .reserved) :
    busRead c (Memory.put c m ea.toNat v) addr = if addr = ea then v else busRead c m addr := by
  by_cases he : addr = ea
  · subst he
    unfold busRead
    cases hr : region c addr <;> simp_all [Memory.get_put]
  · have hne : addr.toNat ≠ ea.toNat := fun hn => he (BitVec.eq_of_toNat_eq hn)
    unfold busRead
    cases hr : region c addr <;> simp [Memory.get_put, he, hne]

/-- An accepted write keeps the canonical form. -/
theorem busWrite_wf {c : Cfg} {m m' : Memory} {addr : Address} {v : Byte} (h : Memory.wf c m)
    (hw : busWrite c m addr v = .ok m') : Memory.wf c m' := by
  obtain ⟨hr, rfl⟩ := busWrite_ok_iff.1 hw
  exact Memory.put_wf h (by simp [hr]) v

end Sys2Proof.Machine
end

