-- ==== Sys2Proof/Laws/State.lean ====
section
/-! SUPPORT. One lemma per field per state update, so that no later proof unfolds an update. -/

namespace Sys2Proof.Machine

@[simp] theorem advance_cfg (k : Nat) (s : State) : (advance k s).cfg = s.cfg := rfl
@[simp] theorem advance_a (k : Nat) (s : State) : (advance k s).a = s.a := rfl
@[simp] theorem advance_x (k : Nat) (s : State) : (advance k s).x = s.x := rfl
@[simp] theorem advance_y (k : Nat) (s : State) : (advance k s).y = s.y := rfl
@[simp] theorem advance_pc (k : Nat) (s : State) : (advance k s).pc = s.pc + BitVec.ofNat 16 k := rfl
@[simp] theorem advance_sp (k : Nat) (s : State) : (advance k s).sp = s.sp := rfl
@[simp] theorem advance_flags (k : Nat) (s : State) : (advance k s).flags = s.flags := rfl
@[simp] theorem advance_halted (k : Nat) (s : State) : (advance k s).halted = s.halted := rfl
@[simp] theorem advance_fault (k : Nat) (s : State) : (advance k s).fault = s.fault := rfl
@[simp] theorem advance_mem (k : Nat) (s : State) : (advance k s).mem = s.mem := rfl

@[simp] theorem poke_cfg (addr : Address) (v : Byte) (s : State) : (poke addr v s).cfg = s.cfg := rfl
@[simp] theorem poke_a (addr : Address) (v : Byte) (s : State) : (poke addr v s).a = s.a := rfl
@[simp] theorem poke_x (addr : Address) (v : Byte) (s : State) : (poke addr v s).x = s.x := rfl
@[simp] theorem poke_y (addr : Address) (v : Byte) (s : State) : (poke addr v s).y = s.y := rfl
@[simp] theorem poke_pc (addr : Address) (v : Byte) (s : State) : (poke addr v s).pc = s.pc := rfl
@[simp] theorem poke_sp (addr : Address) (v : Byte) (s : State) : (poke addr v s).sp = s.sp := rfl
@[simp] theorem poke_flags (addr : Address) (v : Byte) (s : State) : (poke addr v s).flags = s.flags := rfl
@[simp] theorem poke_halted (addr : Address) (v : Byte) (s : State) : (poke addr v s).halted = s.halted := rfl
@[simp] theorem poke_fault (addr : Address) (v : Byte) (s : State) : (poke addr v s).fault = s.fault := rfl
@[simp] theorem poke_mem (addr : Address) (v : Byte) (s : State) :
    (poke addr v s).mem = Memory.put s.cfg s.mem addr.toNat v := rfl

@[simp] theorem writeReg_cfg (r : Reg) (v : Byte) (s : State) : (writeReg r v s).cfg = s.cfg := by
  cases r <;> rfl
@[simp] theorem writeReg_pc (r : Reg) (v : Byte) (s : State) : (writeReg r v s).pc = s.pc := by
  cases r <;> rfl
@[simp] theorem writeReg_sp (r : Reg) (v : Byte) (s : State) : (writeReg r v s).sp = s.sp := by
  cases r <;> rfl
@[simp] theorem writeReg_flags (r : Reg) (v : Byte) (s : State) : (writeReg r v s).flags = s.flags := by
  cases r <;> rfl
@[simp] theorem writeReg_halted (r : Reg) (v : Byte) (s : State) : (writeReg r v s).halted = s.halted := by
  cases r <;> rfl
@[simp] theorem writeReg_fault (r : Reg) (v : Byte) (s : State) : (writeReg r v s).fault = s.fault := by
  cases r <;> rfl
@[simp] theorem writeReg_mem (r : Reg) (v : Byte) (s : State) : (writeReg r v s).mem = s.mem := by
  cases r <;> rfl

@[simp] theorem writeReg_A_a (v : Byte) (s : State) : (writeReg .A v s).a = v := rfl
@[simp] theorem writeReg_A_x (v : Byte) (s : State) : (writeReg .A v s).x = s.x := rfl
@[simp] theorem writeReg_A_y (v : Byte) (s : State) : (writeReg .A v s).y = s.y := rfl
@[simp] theorem writeReg_X_a (v : Byte) (s : State) : (writeReg .X v s).a = s.a := rfl
@[simp] theorem writeReg_X_x (v : Byte) (s : State) : (writeReg .X v s).x = v := rfl
@[simp] theorem writeReg_X_y (v : Byte) (s : State) : (writeReg .X v s).y = s.y := rfl
@[simp] theorem writeReg_Y_a (v : Byte) (s : State) : (writeReg .Y v s).a = s.a := rfl
@[simp] theorem writeReg_Y_x (v : Byte) (s : State) : (writeReg .Y v s).x = s.x := rfl
@[simp] theorem writeReg_Y_y (v : Byte) (s : State) : (writeReg .Y v s).y = v := rfl
@[simp] theorem readReg_A (s : State) : readReg .A s = s.a := rfl
@[simp] theorem readReg_X (s : State) : readReg .X s = s.x := rfl
@[simp] theorem readReg_Y (s : State) : readReg .Y s = s.y := rfl

@[simp] theorem readReg_advance (r : Reg) (k : Nat) (s : State) : readReg r (advance k s) = readReg r s := by
  cases r <;> rfl

/-- R20: a register read returns the last value written to it. -/
@[simp] theorem readReg_writeReg_same (r : Reg) (v : Byte) (s : State) : readReg r (writeReg r v s) = v := by
  cases r <;> rfl

/-- R20: the three registers have no aliases. -/
theorem readReg_writeReg_other {r q : Reg} (h : q ≠ r) (v : Byte) (s : State) :
    readReg q (writeReg r v s) = readReg q s := by
  cases r <;> cases q <;> first | rfl | exact absurd rfl h

@[simp] theorem memRead_advance (k : Nat) (s : State) (addr : Address) :
    memRead (advance k s) addr = memRead s addr := rfl

@[simp] theorem memRead_writeReg (r : Reg) (v : Byte) (s : State) (addr : Address) :
    memRead (writeReg r v s) addr = memRead s addr := by
  cases r <;> rfl

@[simp] theorem setZN_c (v : Byte) (f : Flags) : (setZN v f).c = f.c := rfl
@[simp] theorem setZN_i (v : Byte) (f : Flags) : (setZN v f).i = f.i := rfl
@[simp] theorem setZN_v (v : Byte) (f : Flags) : (setZN v f).v = f.v := rfl
@[simp] theorem setZN_z (v : Byte) (f : Flags) : (setZN v f).z = decide (v = 0) := rfl
@[simp] theorem setZN_n (v : Byte) (f : Flags) : (setZN v f).n = v.getLsbD 7 := rfl

@[simp] theorem setZNIf_true (v : Byte) (f : Flags) : setZNIf true v f = setZN v f := rfl
@[simp] theorem setZNIf_false (v : Byte) (f : Flags) : setZNIf false v f = f := rfl

@[simp] theorem fetch8_fst (s : State) : (fetch8 s).1 = memRead s s.pc := rfl
@[simp] theorem fetch8_snd (s : State) : (fetch8 s).2 = advance 1 s := rfl

end Sys2Proof.Machine
end

