-- ==== Sys2Proof/Laws/Ops.lean ====
section
/-! SUPPORT. One lemma per shared operation that says everything it can do, and what each meaning comes to. -/

namespace Sys2Proof.Machine

/-- A write to RAM: the rest of the instruction goes on with the byte stored. -/
theorem writeThen_ram {s : State} {ea : Address} (h : region s.cfg ea = .ram) (v : Byte) (rest : State → Result) :
    writeThen ea v s rest = rest { s with mem := Memory.put s.cfg s.mem ea.toNat v } := by
  simp [writeThen, busWrite_ram h]

/-- A write elsewhere: the fault is latched and the rest is cut. -/
theorem writeThen_not_ram {s : State} {ea : Address} (h : region s.cfg ea ≠ .ram) (v : Byte) (rest : State → Result) :
    writeThen ea v s rest = .next { s with fault := some (.invalidWriteTarget ea v) } := by
  simp [writeThen, busWrite_not_ram h, raise]

/-- Everything a write followed by the rest of an instruction can do. -/
theorem writeThen_cases (ea : Address) (v : Byte) (s : State) (rest : State → Result) :
    (region s.cfg ea = .ram ∧ writeThen ea v s rest = rest { s with mem := Memory.put s.cfg s.mem ea.toNat v }) ∨
    (region s.cfg ea ≠ .ram ∧ writeThen ea v s rest = .next { s with fault := some (.invalidWriteTarget ea v) }) := by
  by_cases h : region s.cfg ea = .ram
  · exact .inl ⟨h, writeThen_ram h v rest⟩
  · exact .inr ⟨h, writeThen_not_ram h v rest⟩

/-- Everything a register store can do: it stores the register's byte in RAM, or latches the fault. -/
theorem storeReg_cases (r : Reg) (ea : Address) (s : State) :
    (region s.cfg ea = .ram ∧
      storeReg r ea s = .next { s with mem := Memory.put s.cfg s.mem ea.toNat (readReg r s) }) ∨
    (region s.cfg ea ≠ .ram ∧
      storeReg r ea s = .next { s with fault := some (.invalidWriteTarget ea (readReg r s)) }) :=
  writeThen_cases ea (readReg r s) s .next

/-- Everything PHA can do. -/
theorem execPha_cases (s : State) :
    (region s.cfg (stackAddress s.cfg s.sp) = .ram ∧
      execPha s = .next { s with
        pc := s.pc + 1, sp := s.sp - 1, mem := Memory.put s.cfg s.mem (stackAddress s.cfg s.sp).toNat s.a }) ∨
    (region s.cfg (stackAddress s.cfg s.sp) ≠ .ram ∧
      execPha s = .next { s with
        pc := s.pc + 1, fault := some (.invalidWriteTarget (stackAddress s.cfg s.sp) s.a) }) :=
  writeThen_cases (stackAddress s.cfg s.sp) s.a (advance 1 s) fun t => .next { t with sp := t.sp - 1 }

theorem execHlt_eq (s : State) : execHlt s = .next { s with pc := s.pc + 1, halted := true } := rfl

theorem execLdaImm_eq (imm : Byte) (s : State) :
    execLdaImm imm s = .next { s with pc := s.pc + 2, a := imm, flags := setZN imm s.flags } := rfl

theorem execLdxImm_eq (imm : Byte) (s : State) :
    execLdxImm imm s =
      .next { s with pc := s.pc + 2, x := imm, flags := setZNIf s.cfg.flagsOnLdxLdyImm imm s.flags } := rfl

theorem execLdyImm_eq (imm : Byte) (s : State) :
    execLdyImm imm s =
      .next { s with pc := s.pc + 2, y := imm, flags := setZNIf s.cfg.flagsOnLdxLdyImm imm s.flags } := rfl

theorem execLdaZp_eq (zp : Byte) (s : State) :
    execLdaZp zp s = .next { s with pc := s.pc + 2, a := memRead s (zeroPageAddress zp) } := rfl

theorem execLdaAbs_eq (lo hi : Byte) (s : State) :
    execLdaAbs lo hi s = .next { s with pc := s.pc + 3, a := memRead s (absoluteAddress lo hi) } := rfl

theorem execPla_eq (s : State) :
    execPla s = .next { s with
      pc := s.pc + 1, sp := s.sp + 1, a := memRead s (stackAddress s.cfg (s.sp + 1)),
      flags := setZN (memRead s (stackAddress s.cfg (s.sp + 1))) s.flags } := rfl

/-- Everything a branch can do, in the state whose PC is the post-fetch PC. -/
theorem branchIf_eq (cond : Bool) (rel : Byte) (s : State) :
    branchIf cond rel s = .next { s with pc := if cond then branchTarget s.pc rel else s.pc } := by
  cases cond <;> rfl

theorem execBeq_eq (rel : Byte) (s : State) :
    execBeq rel s = .next { s with pc := if s.flags.z then branchTarget (s.pc + 2) rel else s.pc + 2 } :=
  branchIf_eq (s.flags.z) rel (advance 2 s)

theorem execBne_eq (rel : Byte) (s : State) :
    execBne rel s = .next { s with pc := if !s.flags.z then branchTarget (s.pc + 2) rel else s.pc + 2 } :=
  branchIf_eq (!s.flags.z) rel (advance 2 s)

theorem execBpl_eq (rel : Byte) (s : State) :
    execBpl rel s = .next { s with pc := if !s.flags.n then branchTarget (s.pc + 2) rel else s.pc + 2 } :=
  branchIf_eq (!s.flags.n) rel (advance 2 s)

theorem execBmi_eq (rel : Byte) (s : State) :
    execBmi rel s = .next { s with pc := if s.flags.n then branchTarget (s.pc + 2) rel else s.pc + 2 } :=
  branchIf_eq (s.flags.n) rel (advance 2 s)

end Sys2Proof.Machine
end

