-- ==== Sys2Proof/Laws/PerInstr.lean ====
section
/-! SUPPORT. The family EncodedLength: for every instruction, its encoding has the length the table gives its row, 1 to 3
bytes (30_encoding.md R80). One lemma per constructor. -/

namespace Sys2Proof.Laws.EncodedLength

/-- The encoding of an instruction is as long as its row says, and the row says 1, 2 or 3. -/
def Statement (i : Instr) : Prop :=
  (∀ o : Opcodes, (encode o i).length = i.length) ∧ 1 ≤ i.length ∧ i.length ≤ 3

/-- R80: "a sequence of 1, 2 or 3 bytes". -/
theorem length_bounds (r : Row) : 1 ≤ r.length ∧ r.length ≤ 3 := by
  cases r <;> decide

theorem hlt : Statement .hlt := ⟨fun _ => rfl, length_bounds _⟩
theorem ldaImm (imm : Byte) : Statement (.ldaImm imm) := ⟨fun _ => rfl, length_bounds _⟩
theorem ldxImm (imm : Byte) : Statement (.ldxImm imm) := ⟨fun _ => rfl, length_bounds _⟩
theorem ldyImm (imm : Byte) : Statement (.ldyImm imm) := ⟨fun _ => rfl, length_bounds _⟩
theorem ldaZp (zp : Byte) : Statement (.ldaZp zp) := ⟨fun _ => rfl, length_bounds _⟩
theorem ldaAbs (lo hi : Byte) : Statement (.ldaAbs lo hi) := ⟨fun _ => rfl, length_bounds _⟩
theorem staZp (zp : Byte) : Statement (.staZp zp) := ⟨fun _ => rfl, length_bounds _⟩
theorem stxZp (zp : Byte) : Statement (.stxZp zp) := ⟨fun _ => rfl, length_bounds _⟩
theorem styZp (zp : Byte) : Statement (.styZp zp) := ⟨fun _ => rfl, length_bounds _⟩
theorem staAbs (lo hi : Byte) : Statement (.staAbs lo hi) := ⟨fun _ => rfl, length_bounds _⟩
theorem stxAbs (lo hi : Byte) : Statement (.stxAbs lo hi) := ⟨fun _ => rfl, length_bounds _⟩
theorem styAbs (lo hi : Byte) : Statement (.styAbs lo hi) := ⟨fun _ => rfl, length_bounds _⟩
theorem pha : Statement .pha := ⟨fun _ => rfl, length_bounds _⟩
theorem pla : Statement .pla := ⟨fun _ => rfl, length_bounds _⟩
theorem beq (rel : Byte) : Statement (.beq rel) := ⟨fun _ => rfl, length_bounds _⟩
theorem bne (rel : Byte) : Statement (.bne rel) := ⟨fun _ => rfl, length_bounds _⟩
theorem bpl (rel : Byte) : Statement (.bpl rel) := ⟨fun _ => rfl, length_bounds _⟩
theorem bmi (rel : Byte) : Statement (.bmi rel) := ⟨fun _ => rfl, length_bounds _⟩

end Sys2Proof.Laws.EncodedLength
end

