-- ==== Sys2Proof/Laws/Step.lean ====
section
/-! SUPPORT. The inversion of the step: what a step that answers a next state has done, said once; and the bus requests CORE
makes in each of its conditions. -/

namespace Sys2Proof.Machine

/-- The fetched instruction in terms of the three bytes at PC. -/
theorem fetchInstr_eq (s : State) :
    fetchInstr s =
      decodeBytes s.cfg.opcodes (memRead s s.pc) (memRead s (s.pc + 1)) (memRead s (s.pc + 1 + 1)) := rfl

/-- No instruction is fetched exactly when the byte at PC is undecodable. -/
theorem fetchInstr_eq_none_iff (s : State) :
    fetchInstr s = none ↔ decodeRow s.cfg.opcodes (memRead s s.pc) = none := by
  simp [fetchInstr_eq, decodeBytes]

/-- What an undecodable opcode does. -/
theorem undecodable_eq (s : State) :
    undecodable s =
      .next { s with pc := s.pc + 1, fault := some (.unimplementedOpcode (memRead s s.pc) s.pc) } := by
  simp [undecodable, raise, fetch8, advance]

/-- A step that answers a next state was made in Running, and either executed the fetched instruction or raised the
undecodable opcode. -/
theorem step_next_cases {s t : State} (h : step s = .next t) :
    s.halted = false ∧ s.fault = none ∧
      ((∃ i, fetchInstr s = some i ∧ exec i s = .next t) ∨
       (fetchInstr s = none ∧
        t = { s with pc := s.pc + 1, fault := some (.unimplementedOpcode (memRead s s.pc) s.pc) })) := by
  unfold step at h
  split at h
  · cases h
  · rename_i hh
    split at h
    · cases h
    · rename_i hf
      refine ⟨by simpa using hh, hf, ?_⟩
      split at h
      · rename_i i hi
        exact .inl ⟨i, hi, h⟩
      · rename_i hi
        rw [undecodable_eq] at h
        exact .inr ⟨hi, by injection h with h; exact h.symm⟩

/-- In Running an undecodable opcode raises its fault. -/
theorem step_of_none {s : State} (hh : s.halted = false) (hf : s.fault = none) (hi : fetchInstr s = none) :
    step s = .next { s with pc := s.pc + 1, fault := some (.unimplementedOpcode (memRead s s.pc) s.pc) } := by
  rw [← undecodable_eq]
  simp [step, hh, hf, hi]

/-- In Halted no step exists. -/
theorem step_halted {s : State} (hh : s.halted = true) : step s = .fault .halted := by
  simp [step, hh]

/-- In Faulted no step exists. -/
theorem step_faulted {s : State} {record : FaultRecord} (hh : s.halted = false) (hf : s.fault = some record) :
    step s = .fault (.faulted record) := by
  simp [step, hh, hf]

/-- Running is both stop latches empty (R102). -/
theorem running_iff_latches_empty (s : State) : s.running = true ↔ s.halted = false ∧ s.fault = none := by
  simp [State.running]

/-- In Halted and in Faulted CORE makes no bus request (R102). -/
theorem stepRequests_of_stopped {s : State} (h : s.running = false) : stepRequests s = [] := by
  simp [stepRequests, h]

/-- In Running the requests of a decodable instruction are its fetches and then its data access (R67). -/
theorem stepRequests_of_some {s : State} {i : Instr} (h : s.running = true) (hi : fetchInstr s = some i) :
    stepRequests s = fetchRequests i.length s.pc ++ dataRequests i s := by
  simp [stepRequests, h, hi]

/-- In Running an undecodable opcode makes one request, its own fetch (R103). -/
theorem stepRequests_of_none {s : State} (h : s.running = true) (hi : fetchInstr s = none) :
    stepRequests s = [.read s.pc] := by
  simp [stepRequests, h, hi, fetchRequests]

end Sys2Proof.Machine
end

