-- ==== Sys2Proof/Tests/Slice0.lean ====
section
/-! SUPPORT. Tests: the well-formedness checks refuse ill-formed terms; every constructor's decoding from a word written out
from the table (30_encoding.md R85); one-step vectors of the spec (95_test_vectors.md, the vector named in each comment); and
a witness for the hypotheses of each statement. -/

namespace Sys2Proof.Tests

open Sys2Proof.Machine

/-! ## Well-formedness -/

/-- The default configuration is well formed. -/
theorem test_pNes_wf : Cfg.pNes.wf := by decide

/-- R7: RAM below 0x0200 is refused. -/
theorem test_small_ram_refused : ¬ { Cfg.pNes with ramSize := 0x01FF }.wf := by decide

/-- R7: RAM reaching past ROM_BASE is refused. -/
theorem test_ram_over_rom_refused : ¬ { Cfg.pNes with ramSize := 0x8001 }.wf := by decide

/-- R7: a ROM that does not reach the top is refused. -/
theorem test_short_rom_refused : ¬ { Cfg.pNes with romSize := 0x7FFF }.wf := by decide

/-- R7: a ROM of fewer than four bytes is refused. -/
theorem test_tiny_rom_refused :
    ¬ { Cfg.pNes with romBase := 0xFFFD, romSize := 3, resetVector := 0xFFFD }.wf := by decide

/-- R7: a reset vector below ROM_BASE is refused. -/
theorem test_low_vector_refused : ¬ { Cfg.pNes with resetVector := 0x7FFF }.wf := by decide

/-- R7: a reset vector whose high byte would lie past the top is refused. -/
theorem test_high_vector_refused : ¬ { Cfg.pNes with resetVector := 0xFFFF }.wf := by decide

/-- R7: a stack page that is not all RAM is refused. -/
theorem test_stack_off_ram_refused : ¬ { Cfg.pNes with stackBase := 0x0701 }.wf := by decide

/-- R7: two rows with one opcode byte are refused. -/
theorem test_shared_opcode_refused :
    ¬ { Cfg.pNes with opcodes := { Opcodes.standard with bmi := 0x10 } }.wf := by decide

/-- R197: a file without a whole header is refused, and a bare header is accepted. -/
theorem test_short_file_refused :
    ¬ Cfg.pNes.imageOk (List.replicate 15 0) ∧ Cfg.pNes.imageOk (List.replicate 16 0) := by decide

/-! ## Decoding: one word per constructor, the first byte lowest (R81 to R85) -/

theorem test_decode_hlt : decodeTableWord 8 0x02 = some .hlt := by decide
theorem test_decode_ldaImm : decodeTableWord 16 0x80A9 = some (.ldaImm 0x80) := by decide
theorem test_decode_ldxImm : decodeTableWord 16 0x07A2 = some (.ldxImm 0x07) := by decide
theorem test_decode_ldyImm : decodeTableWord 16 0x34A0 = some (.ldyImm 0x34) := by decide
theorem test_decode_ldaZp : decodeTableWord 16 0x10A5 = some (.ldaZp 0x10) := by decide
theorem test_decode_ldaAbs : decodeTableWord 24 0x0034AD = some (.ldaAbs 0x34 0x00) := by decide
theorem test_decode_staZp : decodeTableWord 16 0x1085 = some (.staZp 0x10) := by decide
theorem test_decode_stxZp : decodeTableWord 16 0x1186 = some (.stxZp 0x11) := by decide
theorem test_decode_styZp : decodeTableWord 16 0xFF84 = some (.styZp 0xFF) := by decide
theorem test_decode_staAbs : decodeTableWord 24 0x02008D = some (.staAbs 0x00 0x02) := by decide
theorem test_decode_stxAbs : decodeTableWord 24 0x07FF8E = some (.stxAbs 0xFF 0x07) := by decide
theorem test_decode_styAbs : decodeTableWord 24 0x08008C = some (.styAbs 0x00 0x08) := by decide
theorem test_decode_pha : decodeTableWord 8 0x48 = some .pha := by decide
theorem test_decode_pla : decodeTableWord 8 0x68 = some .pla := by decide
theorem test_decode_beq : decodeTableWord 16 0x02F0 = some (.beq 0x02) := by decide
theorem test_decode_bne : decodeTableWord 16 0xFED0 = some (.bne 0xFE) := by decide
theorem test_decode_bpl : decodeTableWord 16 0x7F10 = some (.bpl 0x7F) := by decide
theorem test_decode_bmi : decodeTableWord 16 0x8030 = some (.bmi 0x80) := by decide

/-- R87: 0x00, 0xFF, the 6502's NOP 0xEA, LDX zero page 0xA6 and JMP 0x4C are illegal (vectors F1, F2, F4, F5, F6). -/
theorem test_decode_illegal :
    (([0x00, 0xFF, 0xEA, 0xA6, 0x4C] : List Byte).map fun b => decodeRow Opcodes.standard b) =
      [none, none, none, none, none] := by decide

/-- A truncated instruction is rejected by name. -/
theorem test_decode_truncated : decode Opcodes.standard [0xAD, 0x00] = .rejected .truncated := by decide

/-! ## States for the one-step tests -/

/-- Put bytes from an address upward, modulo 2^16. -/
def place : Address → List Byte → State → State
  | _, [], s => s
  | a, b :: bytes, s => place (a + 1) bytes (poke a b s)

/-- A Running launch state (R198) in the default configuration, with bytes at `a` and PC there. -/
def launch (a : Address) (bytes : List Byte) : State :=
  { place a bytes State.reset with pc := a, a := 0x05, x := 0x12, y := 0x34, sp := 0xFD }

/-- A field of the state after one step. -/
def stepped {α : Type} (field : State → α) (s : State) : Option α := (nextState (step s)).map field

/-! ## One-step vectors of the spec -/

/-- H2. -/
theorem test_hlt_at_top :
    stepped (fun t => (t.halted, t.pc, t.fault)) (launch 0xFFFF [0x02]) = some (true, 0x0000, none) := by decide

/-- H4: the instruction straddles the wrap; the operand is the ROM byte at 0x0000 of RAM. -/
theorem test_ldaImm_across_the_wrap :
    stepped (fun t => (t.a, t.flags.z, t.flags.n, t.pc)) (launch 0xFFFF [0xA9, 0x00]) =
      some (0x00, true, false, 0x0001) := by decide

/-- LD4. -/
theorem test_ldaImm_negative :
    stepped (fun t => (t.a, t.flags.z, t.flags.n, t.pc)) (launch 0x8000 [0xA9, 0x80]) =
      some (0x80, false, true, 0x8002) := by decide

/-- LD6: the flags are not written. -/
theorem test_ldxImm_keeps_flags :
    stepped (fun t => (t.x, t.flags.z, t.flags.n, t.pc)) (launch 0x8000 [0xA2, 0x00]) =
      some (0x00, false, false, 0x8002) := by decide

/-- R121 with the parameter true: Z is written. -/
theorem test_ldxImm_parameter :
    stepped (fun t => (t.x, t.flags.z))
      { launch 0x8000 [0xA2, 0x00] with cfg := { Cfg.pNes with flagsOnLdxLdyImm := true } } =
      some (0x00, true) := by decide

/-- LD8. -/
theorem test_ldyImm_keeps_flags :
    stepped (fun t => (t.y, t.flags.z, t.flags.n)) (launch 0x8000 [0xA0, 0x80]) =
      some (0x80, false, false) := by decide

/-- LD10: never-written RAM reads 0xFF and N is unchanged. -/
theorem test_ldaZp_fresh :
    stepped (fun t => (t.a, t.flags.n, t.pc)) (launch 0x8000 [0xA5, 0xFF]) = some (0xFF, false, 0x8002) := by
  decide

/-- LD15: the low byte comes first. -/
theorem test_ldaAbs_low_first :
    stepped (fun t => (t.a, t.pc)) (poke 0x0034 0x56 (launch 0x8000 [0xAD, 0x34, 0x00])) =
      some (0x56, 0x8003) := by decide

/-- LD16: the address is 0x3400, in the reserved region. -/
theorem test_ldaAbs_reserved :
    stepped (fun t => (t.a, t.fault)) (poke 0x0034 0x56 (launch 0x8000 [0xAD, 0x00, 0x34])) =
      some (0x00, none) := by decide

/-- T1. -/
theorem test_staZp :
    stepped (fun t => (memRead t 0x0010, t.a, t.pc)) (launch 0x8000 [0x85, 0x10]) = some (0x05, 0x05, 0x8002) := by
  decide

/-- T2. -/
theorem test_stxZp_zero_keeps_z :
    stepped (fun t => (memRead t 0x0000, t.flags.z)) { launch 0x8000 [0x86, 0x00] with x := 0x00 } =
      some (0x00, false) := by decide

/-- T3. -/
theorem test_styZp :
    stepped (fun t => (memRead t 0x00FF, t.flags.n)) { launch 0x8000 [0x84, 0xFF] with y := 0x80 } =
      some (0x80, false) := by decide

/-- T4: the last RAM byte. -/
theorem test_staAbs_last_ram :
    stepped (fun t => (memRead t 0x07FF, t.pc, t.fault)) { launch 0x8000 [0x8D, 0xFF, 0x07] with a := 0x12 } =
      some (0x12, 0x8003, none) := by decide

/-- T5: the first reserved byte. -/
theorem test_staAbs_first_reserved :
    stepped (fun t => (t.fault, t.pc, t.halted)) { launch 0x8000 [0x8D, 0x00, 0x08] with a := 0x12 } =
      some (some (.invalidWriteTarget 0x0800 0x12), 0x8003, false) := by decide

/-- T6: the last reserved byte. -/
theorem test_stxAbs_last_reserved :
    stepped (fun t => (t.fault, t.pc)) { launch 0x8000 [0x8E, 0xFF, 0x7F] with x := 0x34 } =
      some (some (.invalidWriteTarget 0x7FFF 0x34), 0x8003) := by decide

/-- T9. -/
theorem test_stxAbs_stack_page :
    stepped (fun t => memRead t 0x0180) { launch 0x8000 [0x8E, 0x80, 0x01] with x := 0x9A } = some 0x9A := by
  decide

/-- T7: the first ROM byte; ROM is unchanged. -/
theorem test_styAbs_rom :
    stepped (fun t => (t.fault, memRead t 0x8000)) { launch 0x8000 [0x8C, 0x00, 0x80] with y := 0x56 } =
      some (some (.invalidWriteTarget 0x8000 0x56), 0x8C) := by decide

/-- S1: the push does not go to 0x0000 + SP. -/
theorem test_pha :
    stepped (fun t => (memRead t 0x01FD, memRead t 0x00FD, t.sp, t.pc)) { launch 0x8000 [0x48] with a := 0x42 } =
      some (0x42, 0xFF, 0xFC, 0x8001) := by decide

/-- S8: a configuration that is not well formed; SP is not decremented when the push faults. -/
theorem test_pha_faults :
    stepped (fun t => (t.fault, t.sp))
      { launch 0x8000 [0x48] with cfg := { Cfg.pNes with ramSize := 0x0100 }, a := 1, sp := 5 } =
      some (some (.invalidWriteTarget 0x0105 0x01), 5) := by decide

/-- S4: SP wraps, and the pulled zero sets Z. -/
theorem test_pla_wraps :
    stepped (fun t => (t.sp, t.a, t.flags.z, t.flags.n)) { poke 0x0100 0x00 (launch 0x8000 [0x68]) with sp := 0xFF } =
      some (0x00, 0x00, true, false) := by decide

/-- S5: pulling a byte never written. -/
theorem test_pla_fresh :
    stepped (fun t => (t.sp, t.a, t.flags.z, t.flags.n)) { launch 0x8000 [0x68] with sp := 0x10 } =
      some (0x11, 0xFF, false, true) := by decide

/-- B2, with Z = 0 from the launch state. -/
theorem test_beq_not_taken : stepped State.pc (launch 0x8000 [0xF0, 0x02]) = some 0x8002 := by decide

/-- B1. -/
theorem test_beq_taken :
    stepped State.pc { launch 0x8000 [0xF0, 0x02] with flags := ⟨false, true, true, false, false⟩ } = some 0x8004 := by
  decide

/-- B11: the post-fetch PC wraps. -/
theorem test_bne_wraps_forward : stepped State.pc (launch 0xFFFE [0xD0, 0x10]) = some 0x0010 := by decide

/-- B12: a backward branch below 0x0000 wraps. -/
theorem test_bne_wraps_backward : stepped State.pc (launch 0x0000 [0xD0, 0x80]) = some 0xFF82 := by decide

/-- B5: the farthest forward target. -/
theorem test_bpl_taken : stepped State.pc (launch 0x8000 [0x10, 0x7F]) = some 0x8081 := by decide

/-- B7: the farthest backward target. -/
theorem test_bmi_taken :
    stepped State.pc { launch 0x8000 [0x30, 0x80] with flags := ⟨false, false, true, false, true⟩ } = some 0x7F82 := by
  decide

/-- B8. -/
theorem test_bmi_not_taken : stepped State.pc (launch 0x8000 [0x30, 0x80]) = some 0x8002 := by decide

/-- F3: an undecodable byte in the reserved region. -/
theorem test_fault_reserved :
    stepped (fun t => (t.fault, t.pc, t.halted)) (launch 0x4000 []) =
      some (some (.unimplementedOpcode 0x00 0x4000), 0x4001, false) := by decide

/-- RS2: the first step from reset with an empty ROM. -/
theorem test_reset_first_step :
    stepped (fun t => (t.fault, t.pc)) State.reset = some (some (.unimplementedOpcode 0xFF 0x0000), 0x0001) := by
  decide

/-- H3: no step in Halted. -/
theorem test_halted_has_no_step : nextState (step { launch 0x8000 [0x02] with halted := true }) = none := by
  decide

/-- M9: the second byte of a word at 0xFFFF comes from 0x0000. -/
theorem test_word_across_the_wrap :
    busReadWord Cfg.pNes [(0x0000, 0xAB), (0xFFFF, 0xCD)] 0xFFFF = 0xABCD := by decide

/-- R47, R64: an absolute store makes four requests. -/
theorem test_requests_of_staAbs :
    stepRequests (launch 0x8000 [0x8D, 0x00, 0x02]) =
      [.read 0x8000, .read 0x8001, .read 0x8002, .write 0x0200 0x05] := by decide

/-- R90, R91: the text of the spec's examples, and no NOP. -/
theorem test_assemble :
    assembleLine [] 0x8000 ['L', 'D', 'A', ' ', '#', '0', 'x', '0', '5'] = some (.ldaImm 0x05) ∧
    assembleLine [] 0x8000 ['S', 'T', 'A', ' ', '0', 'x', '0', '2', '0', '0'] = some (.staAbs 0x00 0x02) ∧
    assembleLine [] 0x8000 ['B', 'N', 'E', ' ', '*', '+', '0'] = some (.bne 0xFE) ∧
    assembleLine [(['l', 'o', 'o', 'p'], 0x8009)] 0x800E ['B', 'N', 'E', ' ', 'l', 'o', 'o', 'p'] =
      some (.bne 0xF9) ∧
    assembleLine [] 0x8000 ['N', 'O', 'P'] = none := by decide

/-- `withFetchWord` places a word where the first step after reset fetches it. -/
theorem test_withFetchWord :
    fetchInstr (State.reset.withFetchWord 24 0x07FF8E) = some (.stxAbs 0xFF 0x07) ∧
    stepped (fun t => (t.fault, memRead t 0x07FF, t.pc)) (State.reset.withFetchWord 24 0x07FF8E) =
      some (none, 0xBB, 0x0003) := by decide

/-- From a stopped state whose PC lies in the reserved region the word is placed at 0x0000. -/
theorem test_withFetchWord_unbacked :
    stepped (fun t => (t.a, t.pc)) (({ launch 0x4000 [] with halted := true }).withFetchWord 16 0x07A9) =
      some (0x07, 0x0002) := by decide

/-! ## Witnesses: a concrete state and operands that meet all the hypotheses of each statement -/

/-- DecodeInvertsEncode, OpcodeByteDecidesTheRow, IllegalOpcodeBytes. -/
theorem witness_distinct : Opcodes.standard.distinct ∧ (Instr.ldaAbs 0xFF 0xFF).wf = true := by decide

/-- OpcodeByteDecidesTheRow, the clause on bytes that no row has. -/
theorem witness_no_row : ∀ r, Opcodes.standard.byte r ≠ 0xEA := by
  intro r
  cases r <;> decide

/-- EncodeInvertsDecode. -/
theorem witness_decode : decode Opcodes.standard [0xA9, 0x05, 0x02] = .instr (.ldaImm 0x05) [0x02] := by
  decide

/-- StepRunsTheDecodedInstruction, with the bytes across the wrap. -/
theorem witness_step_decoded :
    (launch 0xFFFF [0xA9, 0x00]).running = true ∧ (Instr.ldaImm 0x00).wf = true ∧
    decode (launch 0xFFFF [0xA9, 0x00]).cfg.opcodes
      [memRead (launch 0xFFFF [0xA9, 0x00]) 0xFFFF, memRead (launch 0xFFFF [0xA9, 0x00]) (0xFFFF + 1),
       memRead (launch 0xFFFF [0xA9, 0x00]) (0xFFFF + 2)] = .instr (.ldaImm 0x00) [0xFF] := by decide

/-- UndecodableOpcodeFaults. -/
theorem witness_undecodable :
    (launch 0x8000 [0xEA]).running = true ∧
    ∀ r, (launch 0x8000 [0xEA]).cfg.opcodes.byte r ≠ memRead (launch 0x8000 [0xEA]) (launch 0x8000 [0xEA]).pc := by
  refine ⟨by decide, fun r => ?_⟩
  cases r <;> decide

/-- StepExistsExactlyInRunning, both stopped conditions. -/
theorem witness_stopped :
    { launch 0x8000 [] with halted := true }.running = false ∧
    { launch 0x8000 [] with fault := some (.unimplementedOpcode 0x00 0x8000) }.running = false := by decide

/-- R102: stopped on a store, CORE makes no bus request, where Running it makes four. -/
theorem test_no_fetch_when_stopped :
    stepRequests { launch 0x8000 [0x8D, 0x00, 0x02] with halted := true } = [] ∧
    stepRequests { launch 0x8000 [0x8D, 0x00, 0x02] with fault := some (.invalidWriteTarget 0x8000 0x05) } = [] ∧
    (stepRequests (launch 0x8000 [0x8D, 0x00, 0x02])).length = 4 := by decide

/-- The premise `willRun` of the statements of HLT, the loads, PHA and PLA. -/
theorem witness_willRun_loads_and_stack :
    (launch 0x8000 [0x02]).willRun .hlt ∧ (launch 0x8000 [0xA9, 0x80]).willRun (.ldaImm 0x80) ∧
    (launch 0x8000 [0xA2, 0x00]).willRun (.ldxImm 0x00) ∧ (launch 0x8000 [0xA0, 0xFF]).willRun (.ldyImm 0xFF) ∧
    (launch 0x8000 [0xA5, 0xFF]).willRun (.ldaZp 0xFF) ∧ (launch 0x8000 [0xAD, 0xFF, 0xFF]).willRun (.ldaAbs 0xFF 0xFF) ∧
    (launch 0x8000 [0x48]).willRun .pha ∧ (launch 0x8000 [0x68]).willRun .pla := by decide

/-- The premise `willRun` of the statements of the stores and the branches. -/
theorem witness_willRun_stores_and_branches :
    (launch 0x8000 [0x85, 0xFF]).willRun (.staZp 0xFF) ∧ (launch 0x8000 [0x86, 0x00]).willRun (.stxZp 0x00) ∧
    (launch 0x8000 [0x84, 0xFF]).willRun (.styZp 0xFF) ∧ (launch 0x8000 [0x8D, 0xFF, 0x07]).willRun (.staAbs 0xFF 0x07) ∧
    (launch 0x8000 [0x8E, 0x00, 0x08]).willRun (.stxAbs 0x00 0x08) ∧
    (launch 0x8000 [0x8C, 0x00, 0x80]).willRun (.styAbs 0x00 0x80) ∧
    (launch 0x8000 [0xF0, 0x80]).willRun (.beq 0x80) ∧ (launch 0x8000 [0xD0, 0x7F]).willRun (.bne 0x7F) ∧
    (launch 0x8000 [0x10, 0xFF]).willRun (.bpl 0xFF) ∧ (launch 0x8000 [0x30, 0x00]).willRun (.bmi 0x00) := by
  decide

/-- LdxLdyImmediateLoad: the flag premise with the parameter false and true. -/
theorem witness_flags_premise :
    (launch 0x8000 []).flags = (if (launch 0x8000 []).cfg.flagsOnLdxLdyImm then
      { (launch 0x8000 []).flags with z := decide ((0 : Byte) = 0), n := decide (0x80 ≤ (0 : Byte).toNat) }
      else (launch 0x8000 []).flags) ∧
    (⟨false, true, true, false, false⟩ : Flags) = (if ({ Cfg.pNes with flagsOnLdxLdyImm := true }).flagsOnLdxLdyImm then
      { (launch 0x8000 []).flags with z := decide ((0 : Byte) = 0), n := decide (0x80 ≤ (0 : Byte).toNat) }
      else (launch 0x8000 []).flags) := by decide

/-- LdaFromMemoryLoads: effective addresses at both ends of each form's range. -/
theorem witness_effective_addresses :
    (0x0000 : Address).toNat = (0x00 : Byte).toNat ∧ (0x00FF : Address).toNat = (0xFF : Byte).toNat ∧
    (0x0000 : Address).toNat = (0x00 : Byte).toNat * 256 + (0x00 : Byte).toNat ∧
    (0xFFFF : Address).toNat = (0xFF : Byte).toNat * 256 + (0xFF : Byte).toNat := by decide

/-- ZeroPageStoresWriteOrFault, AbsoluteStoresWriteOrFault, PhaPushesOrFaults, PhaThenPlaRestores: addresses in RAM, the last
RAM byte and both ends of the zero page and of the stack page among them. -/
theorem witness_ram :
    region Cfg.pNes (zeroPageAddress 0x00) = .ram ∧ region Cfg.pNes (zeroPageAddress 0xFF) = .ram ∧
    region Cfg.pNes (absoluteAddress 0xFF 0x07) = .ram ∧ region Cfg.pNes (stackAddress Cfg.pNes 0x00) = .ram ∧
    region Cfg.pNes (stackAddress Cfg.pNes 0xFF) = .ram := by decide

/-- The first three of these, their faulting clauses: the first and last addresses outside RAM, and, in a configuration that R7
refuses, the zero page and the stack page. -/
theorem witness_not_ram :
    region Cfg.pNes (absoluteAddress 0x00 0x08) ≠ .ram ∧ region Cfg.pNes (absoluteAddress 0xFF 0x7F) ≠ .ram ∧
    region Cfg.pNes (absoluteAddress 0x00 0x80) ≠ .ram ∧ region Cfg.pNes (absoluteAddress 0xFF 0xFF) ≠ .ram ∧
    region { Cfg.pNes with ramSize := 0x80 } (zeroPageAddress 0x80) ≠ .ram ∧
    region { Cfg.pNes with ramSize := 0x0100 } (stackAddress Cfg.pNes 0x05) ≠ .ram := by decide

/-- PlaPulls: the new SP at an ordinary value and at the wrap. -/
theorem witness_sp :
    (0xFE : Byte).toNat = ((0xFD : Byte).toNat + 1) % 256 ∧ (0x00 : Byte).toNat = ((0xFF : Byte).toNat + 1) % 256 := by
  decide

/-- BneToItselfNeverEnds. -/
theorem witness_bne_to_itself :
    (launch 0x8005 [0xD0, 0xFE]).willRun (.bne 0xFE) ∧ (launch 0x8005 [0xD0, 0xFE]).flags.z = false := by
  decide

/-- The premise `step s = .next t` of the rules over all instructions, of a completing step. -/
theorem witness_step_completes :
    step (launch 0x8000 [0xA9, 0x80]) = .next
      { launch 0x8000 [0xA9, 0x80] with a := 0x80, pc := 0x8002, flags := ⟨false, false, true, false, true⟩ } := rfl

/-- WhoWritesEachRegister and WhoWritesTheFlags: each register and the flags do change somewhere. -/
theorem witness_registers_change :
    stepped State.a (launch 0x8000 [0xA9, 0x80]) ≠ some (launch 0x8000 [0xA9, 0x80]).a ∧
    stepped State.x (launch 0x8000 [0xA2, 0x80]) ≠ some (launch 0x8000 [0xA2, 0x80]).x ∧
    stepped State.y (launch 0x8000 [0xA0, 0x80]) ≠ some (launch 0x8000 [0xA0, 0x80]).y ∧
    stepped State.sp (launch 0x8000 [0x48]) ≠ some (launch 0x8000 [0x48]).sp ∧
    stepped State.flags (launch 0x8000 [0xA9, 0x80]) ≠ some (launch 0x8000 [0xA9, 0x80]).flags := by decide

/-- NonStoringFormsLeaveMemory and StoringFormsFrame: forms of each list with a next state. -/
theorem witness_frames :
    (∃ t, exec .pla (launch 0x8000 [0x68]) = .next t) ∧ (∃ t, exec (.beq 0x80) (launch 0x8000 []) = .next t) ∧
    (∃ t, exec (.staZp 0xFF) (launch 0x8000 []) = .next t) ∧ (∃ t, exec (.stxAbs 0xFF 0x07) (launch 0x8000 []) = .next t) ∧
    (∃ t, exec .pha (launch 0x8000 []) = .next t) :=
  ⟨⟨_, rfl⟩, ⟨_, rfl⟩, ⟨_, rfl⟩, ⟨_, rfl⟩, ⟨_, rfl⟩⟩

/-- PcAfterEachStep, RegistersReadOnlyByTheirStores: the fetched instruction, of each addressing mode, beside its step. -/
theorem witness_fetched :
    fetchInstr (launch 0x8000 [0x02]) = some .hlt ∧ fetchInstr (launch 0x8000 [0xA2, 0x07]) = some (.ldxImm 0x07) ∧
    fetchInstr (launch 0x8000 [0x84, 0x07]) = some (.styZp 0x07) ∧
    fetchInstr (launch 0x8000 [0xAD, 0x34, 0x00]) = some (.ldaAbs 0x34 0x00) ∧
    fetchInstr (launch 0x8000 [0xF0, 0x02]) = some (.beq 0x02) ∧ fetchInstr (launch 0x8000 [0xEA]) = none ∧
    (([launch 0x8000 [0x02], launch 0x8000 [0xA2, 0x07], launch 0x8000 [0x84, 0x07], launch 0x8000 [0xAD, 0x34, 0x00],
      launch 0x8000 [0xF0, 0x02], launch 0x8000 [0xEA]]).all fun s => (nextState (step s)).isSome) = true := by
  decide

/-- FaultsArePrecise, FaultsHaveTheirCauses: steps that latch each kind of fault. -/
theorem witness_faults :
    stepped State.fault (launch 0x8000 [0xEA]) = some (some (.unimplementedOpcode 0xEA 0x8000)) ∧
    stepped State.fault (launch 0x8000 [0x8D, 0xFF, 0xFF]) = some (some (.invalidWriteTarget 0xFFFF 0x05)) := by
  decide

/-- FaultsArePrecise, each of its two places for PC: past the opcode byte where nothing decodes, past all three bytes of a
store that faults (R23, R162). -/
theorem witness_faults_pc :
    fetchInstr (launch 0x8000 [0xEA]) = none ∧ stepped State.pc (launch 0x8000 [0xEA]) = some 0x8001 ∧
    fetchInstr (launch 0x8000 [0x8D, 0xFF, 0xFF]) = some (.staAbs 0xFF 0xFF) ∧
    stepped State.pc (launch 0x8000 [0x8D, 0xFF, 0xFF]) = some 0x8003 := by
  decide

/-- OnlyAbsoluteStoresCanMissRam: a well-formed configuration in which an absolute store misses RAM. -/
theorem witness_absolute_store_faults :
    (launch 0x8000 [0x8C, 0x00, 0x08]).cfg.wf ∧
    stepped State.fault (launch 0x8000 [0x8C, 0x00, 0x08]) = some (some (.invalidWriteTarget 0x0800 0x34)) := by
  decide

/-- AddressMapHasThreeRegions, ReadsSeeWrites: an address at each end of each region. -/
theorem witness_regions :
    (([0x0000, 0x07FF, 0x0800, 0x7FFF, 0x8000, 0xFFFF] : List Address).map fun a => region Cfg.pNes a) =
      [.ram, .ram, .reserved, .reserved, .rom, .rom] := by decide

/-- WordsAreLittleEndian: the next address at an ordinary value and at the wrap. -/
theorem witness_next_address :
    (0xFFFD : Address).toNat = ((0xFFFC : Address).toNat + 1) % 2 ^ 16 ∧
    (0x0000 : Address).toNat = ((0xFFFF : Address).toNat + 1) % 2 ^ 16 := by decide

/-- CanonicalMemoriesAreEqual: canonical memories, with RAM and ROM listed and with nothing listed. -/
theorem witness_canonical :
    Memory.wf Cfg.pNes [(0x0010, 0x00), (0x07FF, 0x12), (0x8000, 0xA9)] ∧ Memory.wf Cfg.pNes Memory.blank := by
  decide

/-- The canonical form refuses an address out of order, a RAM byte equal to the fill, and a byte in the reserved region. -/
theorem test_not_canonical :
    ¬ Memory.wf Cfg.pNes [(0x0011, 0x00), (0x0010, 0x00)] ∧ ¬ Memory.wf Cfg.pNes [(0x0010, 0xFF)] ∧
    ¬ Memory.wf Cfg.pNes [(0x0800, 0x01)] := by decide

/-- FetchSeesTheStoredByte: a store of HLT's opcode byte to the last RAM byte (after vector T10). -/
theorem witness_stored_opcode :
    dataRequests (.staAbs 0xFF 0x07) { launch 0x8000 [] with a := 0x02 } = [.write 0x07FF 0x02] ∧
    region Cfg.pNes 0x07FF = .ram ∧ Opcodes.standard.distinct ∧ (0x02 : Byte) = Opcodes.standard.byte .hlt := by
  decide

/-- StepKeepsTheInvariant. -/
theorem witness_invariant :
    (launch 0x8000 [0x8D, 0xFF, 0x07]).Inv ∧ ∃ t, step (launch 0x8000 [0x8D, 0xFF, 0x07]) = .next t :=
  ⟨⟨by decide, fun h => by cases h⟩, ⟨_, rfl⟩⟩

/-- PowerOnMeetsTheInvariant, PowerOnLoadsTheImage: a machine started with a one-byte image, and one that is not started. -/
theorem witness_powerOn :
    Cfg.pNes.wf ∧ Cfg.pNes.imageOk (List.replicate 16 0 ++ [0xA9]) ∧ ¬ Cfg.pNes.imageOk [] ∧
    powerOn Cfg.pNes (List.replicate 16 0 ++ [0xA9]) = .started (bootState Cfg.pNes [(0x8000, 0xA9)]) ∧
    powerOn Cfg.pNes [] = .notStarted .startupIOError := by decide

/-- RunEndsAtItsFirstStop: a run that HLT ends after one step. -/
theorem witness_run_ends :
    endsWithin 1 (launch 0x8000 [0x02]) { launch 0x8000 [0x02] with pc := 0x8001, halted := true } := ⟨rfl, rfl⟩

/-- TextAssemblesBack, the label clause, at both ends of the range and across the wrap. -/
theorem witness_label :
    relByte (distanceTo 0x8000 0x7F82) = some 0x80 ∧ relByte (distanceTo 0x8000 0x8081) = some 0x7F ∧
    relByte (distanceTo 0xFFFE 0x0010) = some 0x10 ∧ relByte (distanceTo 0x8000 0x8082) = none := by decide

end Sys2Proof.Tests
end

-- What one instruction does, as one state
section
/-! SUPPORT. The next state of each instruction as one function, and what it leaves in each field. `exec` always answers it
(`exec_eq_next_afterExec`), and a step that answers a next state answers it or the fault of an undecodable opcode
(`step_next_inversion`). -/

namespace Sys2Proof.Machine

/-- The state after a write request to the bus: memory follows the request, and a rejected one is latched (R56, R163). -/
def afterWrite (ea : Address) (v : Byte) (s : State) : State :=
  { s with
    mem := applyRequest s.cfg s.mem (.write ea v)
    fault := if region s.cfg ea = .ram then s.fault else some (.invalidWriteTarget ea v) }

/-- The state after an instruction, PC past its bytes and its writes made; a push outside RAM leaves SP alone (D21). -/
def afterExec (i : Instr) (s : State) : State :=
  let t := advance i.length s
  match i with
  | .hlt => { t with halted := true }
  | .ldaImm imm => { t with a := imm, flags := setZN imm s.flags }
  | .ldxImm imm => { t with x := imm, flags := setZNIf s.cfg.flagsOnLdxLdyImm imm s.flags }
  | .ldyImm imm => { t with y := imm, flags := setZNIf s.cfg.flagsOnLdxLdyImm imm s.flags }
  | .ldaZp zp => { t with a := memRead s (zeroPageAddress zp) }
  | .ldaAbs lo hi => { t with a := memRead s (absoluteAddress lo hi) }
  | .staZp zp => afterWrite (zeroPageAddress zp) s.a t
  | .stxZp zp => afterWrite (zeroPageAddress zp) s.x t
  | .styZp zp => afterWrite (zeroPageAddress zp) s.y t
  | .staAbs lo hi => afterWrite (absoluteAddress lo hi) s.a t
  | .stxAbs lo hi => afterWrite (absoluteAddress lo hi) s.x t
  | .styAbs lo hi => afterWrite (absoluteAddress lo hi) s.y t
  | .pha =>
    { afterWrite (stackAddress s.cfg s.sp) s.a t with
      sp := if region s.cfg (stackAddress s.cfg s.sp) = .ram then s.sp - 1 else s.sp }
  | .pla =>
    { t with
      sp := s.sp + 1
      a := memRead s (stackAddress s.cfg (s.sp + 1))
      flags := setZN (memRead s (stackAddress s.cfg (s.sp + 1))) s.flags }
  | .beq rel => { t with pc := if s.flags.z then branchTarget t.pc rel else t.pc }
  | .bne rel => { t with pc := if !s.flags.z then branchTarget t.pc rel else t.pc }
  | .bpl rel => { t with pc := if !s.flags.n then branchTarget t.pc rel else t.pc }
  | .bmi rel => { t with pc := if s.flags.n then branchTarget t.pc rel else t.pc }

/-- A write request in RAM stores its byte. -/
theorem applyRequest_write_ram {c : Cfg} {ea : Address} (h : region c ea = .ram) (m : Memory) (v : Byte) :
    applyRequest c m (.write ea v) = Memory.put c m ea.toNat v := by
  simp [applyRequest, busWrite_ram h]

/-- A write request elsewhere changes no memory (R57). -/
theorem applyRequest_write_not_ram {c : Cfg} {ea : Address} (h : region c ea ≠ .ram) (m : Memory) (v : Byte) :
    applyRequest c m (.write ea v) = m := by
  simp [applyRequest, busWrite_not_ram h]

/-- A register store answers the state after its write request, in RAM and elsewhere. -/
theorem storeReg_eq_next_afterWrite (r : Reg) (ea : Address) (s : State) :
    storeReg r ea s = .next (afterWrite ea (readReg r s) s) := by
  rcases storeReg_cases r ea s with ⟨hram, h⟩ | ⟨hram, h⟩
  · simp [h, afterWrite, hram, applyRequest_write_ram hram]
  · simp [h, afterWrite, hram, applyRequest_write_not_ram hram]

/-- PHA answers the state after its write request, with SP decremented where the write is accepted. -/
theorem execPha_eq_next_afterExec (s : State) : execPha s = .next (afterExec .pha s) := by
  have hpc : advance Instr.pha.length s = { s with pc := s.pc + 1 } := rfl
  rcases execPha_cases s with ⟨hram, h⟩ | ⟨hram, h⟩
  · simp [h, afterExec, hpc, afterWrite, hram, applyRequest_write_ram hram]
  · simp [h, afterExec, hpc, afterWrite, hram, applyRequest_write_not_ram hram]

/-- Every instruction answers a next state, the one `afterExec` says. -/
theorem exec_eq_next_afterExec (i : Instr) (s : State) : exec i s = .next (afterExec i s) := by
  cases i with
  | staZp | staAbs => exact storeReg_eq_next_afterWrite .A _ _
  | stxZp | stxAbs => exact storeReg_eq_next_afterWrite .X _ _
  | styZp | styAbs => exact storeReg_eq_next_afterWrite .Y _ _
  | pha => exact execPha_eq_next_afterExec s
  | beq | bne | bpl | bmi => exact branchIf_eq _ _ _
  | _ => rfl

/-- A step that answers a next state was made in Running, and answers what the fetched instruction leaves or the fault of
the undecodable opcode. -/
theorem step_next_inversion {s t : State} (h : step s = .next t) :
    s.halted = false ∧ s.fault = none ∧
      ((∃ i, fetchInstr s = some i ∧ t = afterExec i s) ∨
       (fetchInstr s = none ∧
        t = { s with pc := s.pc + 1, fault := some (.unimplementedOpcode (memRead s s.pc) s.pc) })) := by
  obtain ⟨hhalted, hfault, ⟨i, hi, hexec⟩ | hnone⟩ := step_next_cases h
  · rw [exec_eq_next_afterExec] at hexec
    cases hexec
    exact ⟨hhalted, hfault, .inl ⟨i, hi, rfl⟩⟩
  · exact ⟨hhalted, hfault, .inr hnone⟩

/-- In Running the step of a decodable instruction answers what the instruction leaves. -/
theorem step_of_some {s : State} {i : Instr} (hh : s.halted = false) (hf : s.fault = none)
    (hi : fetchInstr s = some i) : step s = .next (afterExec i s) := by
  simp [step, hh, hf, hi, exec_eq_next_afterExec]

/-! ### The fields of the state after an instruction -/

@[simp] theorem afterExec_cfg (i : Instr) (s : State) : (afterExec i s).cfg = s.cfg := by
  cases i <;> rfl

/-- Memory after an instruction follows its data request (R64). -/
theorem afterExec_mem (i : Instr) (s : State) :
    (afterExec i s).mem = (dataRequests i s).foldl (applyRequest s.cfg) s.mem := by
  cases i <;> rfl

/-- R21: A is written by LDA and PLA alone. -/
theorem afterExec_a {i : Instr} (h : i.row ∉ [Row.ldaImm, .ldaZp, .ldaAbs, .pla]) (s : State) :
    (afterExec i s).a = s.a := by
  cases i with
  | ldaImm | ldaZp | ldaAbs | pla => simp [Instr.row] at h
  | _ => rfl

/-- R21: X is written by LDX alone. -/
theorem afterExec_x {i : Instr} (h : i.row ≠ .ldxImm) (s : State) : (afterExec i s).x = s.x := by
  cases i with
  | ldxImm => exact absurd rfl h
  | _ => rfl

/-- R21: Y is written by LDY alone. -/
theorem afterExec_y {i : Instr} (h : i.row ≠ .ldyImm) (s : State) : (afterExec i s).y = s.y := by
  cases i with
  | ldyImm => exact absurd rfl h
  | _ => rfl

/-- R27: SP is written by PHA and PLA alone. -/
theorem afterExec_sp {i : Instr} (h : i.row ∉ [Row.pha, .pla]) (s : State) : (afterExec i s).sp = s.sp := by
  cases i with
  | pha | pla => simp [Instr.row] at h
  | _ => rfl

/-- R33: HLT sets the halt latch. -/
@[simp] theorem afterExec_hlt_halted (s : State) : (afterExec .hlt s).halted = true := rfl

/-- HLT latches no fault. -/
@[simp] theorem afterExec_hlt_fault (s : State) : (afterExec .hlt s).fault = s.fault := rfl

/-- R33: no instruction but HLT writes the halt latch. -/
theorem afterExec_halted {i : Instr} (h : i ≠ .hlt) (s : State) : (afterExec i s).halted = s.halted := by
  cases i with
  | hlt => exact absurd rfl h
  | _ => rfl

/-- In a state that is not halted, HLT alone leaves one that is. -/
theorem afterExec_halted_iff {s : State} (hh : s.halted = false) (i : Instr) :
    (afterExec i s).halted = true ↔ i = .hlt := by
  by_cases h : i = .hlt
  · simp [h]
  · simp [h, afterExec_halted h, hh]

@[simp] theorem setZNIf_c (on : Bool) (v : Byte) (f : Flags) : (setZNIf on v f).c = f.c := by
  cases on <;> rfl
@[simp] theorem setZNIf_i (on : Bool) (v : Byte) (f : Flags) : (setZNIf on v f).i = f.i := by
  cases on <;> rfl
@[simp] theorem setZNIf_v (on : Bool) (v : Byte) (f : Flags) : (setZNIf on v f).v = f.v := by
  cases on <;> rfl

/-- R29: no instruction writes C, I or V. -/
theorem afterExec_inert_flags (i : Instr) (s : State) :
    (afterExec i s).flags.c = s.flags.c ∧ (afterExec i s).flags.i = s.flags.i ∧
      (afterExec i s).flags.v = s.flags.v := by
  cases i with
  | ldxImm imm | ldyImm imm => exact ⟨setZNIf_c _ imm _, setZNIf_i _ imm _, setZNIf_v _ imm _⟩
  | _ => exact ⟨rfl, rfl, rfl⟩

/-- R29, R121, R122: LDA immediate and PLA write the flags, LDX and LDY immediate under their parameter, and no other
instruction does. -/
theorem afterExec_flags {i : Instr} {s : State} (h : i.row ∉ [Row.ldaImm, .pla])
    (hon : s.cfg.flagsOnLdxLdyImm = true → i.row ∉ [Row.ldxImm, .ldyImm]) : (afterExec i s).flags = s.flags := by
  cases i with
  | ldaImm | pla => simp [Instr.row] at h
  | ldxImm | ldyImm =>
    have hoff : s.cfg.flagsOnLdxLdyImm = false := by simpa [Instr.row] using hon
    simp [afterExec, hoff]
  | _ => rfl

/-- R23: every instruction but a branch leaves PC past its own bytes. -/
theorem afterExec_pc {i : Instr} (h : i.row.mode ≠ .relative) (s : State) :
    (afterExec i s).pc = s.pc + BitVec.ofNat 16 i.length := by
  cases i with
  | beq | bne | bpl | bmi => exact absurd rfl h
  | _ => rfl

/-- R150: a branch leaves PC at the post-fetch PC or at that plus the signed operand. -/
theorem ite_branchTarget (taken : Bool) (p : Address) (rel : Byte) :
    (if taken then branchTarget p rel else p) = p ∨ (if taken then branchTarget p rel else p) = p + sext16 rel := by
  cases taken with
  | false => exact .inl rfl
  | true => exact .inr rfl

/-- R150 to R154: where each branch leaves PC. -/
theorem afterExec_branch_pc {i : Instr} {rel : Byte} (h : i = .beq rel ∨ i = .bne rel ∨ i = .bpl rel ∨ i = .bmi rel)
    (s : State) : (afterExec i s).pc = s.pc + 2 ∨ (afterExec i s).pc = s.pc + 2 + sext16 rel := by
  rcases h with rfl | rfl | rfl | rfl <;> exact ite_branchTarget _ (s.pc + 2) rel

/-! ### The registers as inputs -/

/-- R21: an instruction that neither reads nor writes A carries any value of it over. -/
theorem afterExec_with_a {i : Instr} (h : i.row ∉ [Row.staZp, .staAbs, .pha, .ldaImm, .ldaZp, .ldaAbs, .pla])
    (s : State) (v : Byte) : afterExec i { s with a := v } = { afterExec i s with a := v } := by
  cases i with
  | staZp | staAbs | pha | ldaImm | ldaZp | ldaAbs | pla => simp [Instr.row] at h
  | _ => rfl

/-- R21: an instruction that neither reads nor writes X carries any value of it over. -/
theorem afterExec_with_x {i : Instr} (h : i.row ∉ [Row.stxZp, .stxAbs, .ldxImm]) (s : State) (v : Byte) :
    afterExec i { s with x := v } = { afterExec i s with x := v } := by
  cases i with
  | stxZp | stxAbs | ldxImm => simp [Instr.row] at h
  | _ => rfl

/-- R21: an instruction that neither reads nor writes Y carries any value of it over. -/
theorem afterExec_with_y {i : Instr} (h : i.row ∉ [Row.styZp, .styAbs, .ldyImm]) (s : State) (v : Byte) :
    afterExec i { s with y := v } = { afterExec i s with y := v } := by
  cases i with
  | styZp | styAbs | ldyImm => simp [Instr.row] at h
  | _ => rfl

end Sys2Proof.Machine
end

-- The bus requests of a step
section
/-! SUPPORT. How many requests a step makes, and that memory after it is memory before it with them applied; so what one
request keeps, every step keeps, and what one step keeps, every run keeps. -/

namespace Sys2Proof.Machine

@[simp] theorem fetchRequests_length (k : Nat) (a : Address) : (fetchRequests k a).length = k := by
  induction k generalizing a with
  | zero => rfl
  | succ k ih => simp [fetchRequests, ih]

/-- Fetching writes nothing. -/
@[simp] theorem filter_isWrite_fetchRequests (k : Nat) (a : Address) :
    (fetchRequests k a).filter BusRequest.isWrite = [] := by
  induction k generalizing a with
  | zero => rfl
  | succ k ih => simp [fetchRequests, BusRequest.isWrite, ih]

/-- Fetching leaves memory alone (R58). -/
@[simp] theorem foldl_fetchRequests (c : Cfg) (k : Nat) (a : Address) (m : Memory) :
    (fetchRequests k a).foldl (applyRequest c) m = m := by
  induction k generalizing a with
  | zero => rfl
  | succ k ih => simp [fetchRequests, applyRequest, ih]

/-- R64: an instruction makes at most one data access. -/
theorem dataRequests_length_le (i : Instr) (s : State) : (dataRequests i s).length ≤ 1 := by
  cases i <;> simp [dataRequests]

/-- R64, R67: a step makes at most four requests, three of them fetches. -/
theorem stepRequests_length_le (s : State) : (stepRequests s).length ≤ 4 := by
  cases hrun : s.running with
  | false => simp [stepRequests_of_stopped hrun]
  | true =>
    cases hi : fetchInstr s with
    | none => simp [stepRequests_of_none hrun hi]
    | some i =>
      have hfetch : i.length ≤ 3 := (Laws.EncodedLength.length_bounds i.row).2
      have hdata := dataRequests_length_le i s
      simp only [stepRequests_of_some hrun hi, List.length_append, fetchRequests_length]
      omega

/-- R64: a step makes at most one write, its data access. -/
theorem stepRequests_writes_le (s : State) : ((stepRequests s).filter BusRequest.isWrite).length ≤ 1 := by
  cases hrun : s.running with
  | false => simp [stepRequests_of_stopped hrun]
  | true =>
    cases hi : fetchInstr s with
    | none => simp [stepRequests_of_none hrun hi, BusRequest.isWrite]
    | some i =>
      simp only [stepRequests_of_some hrun hi, List.filter_append, filter_isWrite_fetchRequests, List.nil_append]
      exact (List.length_filter_le _ _).trans (dataRequests_length_le i s)

/-- R47: memory after a step is memory before it with the step's requests applied in order. -/
theorem step_mem {s t : State} (h : step s = .next t) :
    t.mem = (stepRequests s).foldl (applyRequest s.cfg) s.mem := by
  obtain ⟨hhalted, hfault, ⟨i, hi, rfl⟩ | ⟨hi, rfl⟩⟩ := step_next_inversion h
  · have hrun := (running_iff_latches_empty s).2 ⟨hhalted, hfault⟩
    simp [stepRequests_of_some hrun hi, afterExec_mem]
  · have hrun := (running_iff_latches_empty s).2 ⟨hhalted, hfault⟩
    simp [stepRequests_of_none hrun hi, applyRequest]

/-- R40: no step changes the configuration. -/
theorem step_cfg {s t : State} (h : step s = .next t) : t.cfg = s.cfg := by
  obtain ⟨-, -, ⟨i, -, rfl⟩ | ⟨-, rfl⟩⟩ := step_next_inversion h
  · exact afterExec_cfg i s
  · rfl

/-- What every bus request keeps of memory, every step keeps. -/
theorem step_keeps_mem {P : Memory → Prop} {s t : State} (hreq : ∀ m r, P m → P (applyRequest s.cfg m r))
    (h : step s = .next t) (hs : P s.mem) : P t.mem := by
  rw [step_mem h]
  exact List.foldlRecOn _ _ hs fun m hm r _ => hreq m r hm

/-- A bus request keeps memory canonical. -/
theorem applyRequest_wf {c : Cfg} {m : Memory} (r : BusRequest) (h : Memory.wf c m) :
    Memory.wf c (applyRequest c m r) := by
  cases r with
  | read addr => exact h
  | write ea v =>
    by_cases hram : region c ea = .ram
    · exact busWrite_wf h (by rw [busWrite_ram hram, applyRequest_write_ram hram])
    · rwa [applyRequest_write_not_ram hram]

/-- R57: a bus request changes no byte outside RAM. -/
theorem busRead_applyRequest_of_not_ram {c : Cfg} {addr : Address} (h : region c addr ≠ .ram) (m : Memory)
    (r : BusRequest) : busRead c (applyRequest c m r) addr = busRead c m addr := by
  cases r with
  | read ea => rfl
  | write ea v =>
    by_cases hram : region c ea = .ram
    · have hne : addr ≠ ea := fun he => h (he ▸ hram)
      rw [applyRequest_write_ram hram, busRead_put c m ea addr v (by simp [hram]), if_neg hne]
    · rw [applyRequest_write_not_ram hram]

/-- R36, R57: no step changes a byte outside RAM. -/
theorem memRead_step_of_not_ram {s t : State} {addr : Address} (h : step s = .next t)
    (hout : region s.cfg addr ≠ .ram) : memRead t addr = memRead s addr := by
  have hkept : busRead s.cfg t.mem addr = busRead s.cfg s.mem addr :=
    step_keeps_mem (P := fun m => busRead s.cfg m addr = busRead s.cfg s.mem addr)
      (fun m r hm => (busRead_applyRequest_of_not_ram hout m r).trans hm) h rfl
  unfold memRead
  rwa [step_cfg h]

/-- Two states have the configuration and every byte outside RAM in common, the ROM among them. -/
def agreesOutsideRam (s t : State) : Prop :=
  t.cfg = s.cfg ∧ ∀ addr, region s.cfg addr ≠ .ram → memRead t addr = memRead s addr

/-- Agreement outside RAM goes on over a step. -/
theorem agreesOutsideRam_step {s t u : State} (ht : agreesOutsideRam s t) (h : step t = .next u) :
    agreesOutsideRam s u := by
  obtain ⟨hcfg, hread⟩ := ht
  refine ⟨(step_cfg h).trans hcfg, fun addr hout => ?_⟩
  exact (memRead_step_of_not_ram h (hcfg ▸ hout)).trans (hread addr hout)

/-- What every step keeps, every run keeps (R106). -/
theorem runFor_keeps {P : State → Prop} (hstep : ∀ s t, P s → step s = .next t → P t) (k : Nat) {s : State} (hs : P s) :
    P (runFor k s) := by
  induction k generalizing s with
  | zero => exact hs
  | succ k ih =>
    unfold runFor
    cases h : step s with
    | next t => exact ih (hstep s t hs h)
    | fault r => exact hs
    | refused r => exact hs

end Sys2Proof.Machine
end

-- Reset, the flags and the observation port
section
/-! SUPPORT. What the refill of RAM leaves on the bus, and the two values read as numbers: a little-endian word and the sign
bit of a byte. -/

namespace Sys2Proof.Machine

/-- R60: the value of two bytes put together, the high one first. -/
theorem toNat_append_bytes (hi lo : Byte) : (hi ++ lo).toNat = hi.toNat * 256 + lo.toNat := by
  rw [BitVec.toNat_append, ← Nat.shiftLeft_add_eq_or_of_lt lo.isLt, Nat.shiftLeft_eq]

/-- Bit 7 of a byte is set exactly from 0x80 up. -/
theorem getLsbD_seven_iff (v : Byte) : v.getLsbD 7 = true ↔ 0x80 ≤ v.toNat := by
  have hmsb : v.msb = v.getLsbD 7 := BitVec.msb_eq_getLsbD_last v
  rw [← hmsb, BitVec.msb_eq_decide]
  simp

/-- R190 step 2: after the refill every RAM address reads RAM_FILL and every other as before. -/
theorem busRead_refillRam (c : Cfg) (m : Memory) (addr : Address) :
    busRead c (refillRam c m) addr = if region c addr = .ram then c.ramFill else busRead c m addr := by
  unfold busRead
  cases hr : region c addr with
  | ram => simp [Memory.get_refillRam, (region_eq_ram_iff c addr).1 hr]
  | rom =>
    have hout : ¬ addr.toNat < c.ramSize := Nat.not_lt.2 ((region_eq_rom_iff c addr).1 hr).1
    simp [Memory.get_refillRam, hout]
  | reserved => simp

end Sys2Proof.Machine
end

-- The statements of the family 10_state
section
/-! The obligations on the state: who writes and who reads each register, PC, memory and the bus, the invariant, reset and the
observation port. -/

namespace Sys2Proof.Machine

/-- Settles O40: a state agrees with itself outside RAM, and every step of a run keeps the agreement with its start. -/
theorem romNeverChangesDuringARun : Obligations.RomNeverChangesDuringARun :=
  fun s k => runFor_keeps (P := agreesOutsideRam s) (fun _ _ => agreesOutsideRam_step) k ⟨rfl, fun _ _ => rfl⟩

/-- Settles O43: memory changes only by bus requests, which keep it canonical, and only HLT, which latches no fault, sets
`halted`. -/
theorem stepKeepsTheInvariant : Obligations.StepKeepsTheInvariant := by
  intro s t hs h
  have hmem : Memory.wf s.cfg t.mem := step_keeps_mem (fun _ r hm => applyRequest_wf r hm) h hs.memCanonical
  refine ⟨step_cfg h ▸ hmem, fun ht => ?_⟩
  obtain ⟨hhalted, hfault, ⟨i, -, rfl⟩ | ⟨-, rfl⟩⟩ := step_next_inversion h
  · obtain rfl := (afterExec_halted_iff hhalted i).1 ht
    exact (afterExec_hlt_fault s).trans hfault
  · exact absurd (hhalted.symm.trans ht) Bool.false_ne_true

/-- Settles O23, from the frame of each register. -/
theorem whoWritesEachRegister : Obligations.WhoWritesEachRegister := by
  intro s t h
  obtain ⟨hhalted, -, ⟨i, hi, rfl⟩ | ⟨hi, rfl⟩⟩ := step_next_inversion h
  · refine ⟨fun ha => ⟨i, hi, ?_⟩, fun hx => ⟨i, hi, ?_⟩, fun hy => ⟨i, hi, ?_⟩, fun hsp => ⟨i, hi, ?_⟩, ?_⟩
    · exact not_imp_comm.1 (afterExec_a · s) ha
    · exact not_imp_comm.1 (afterExec_x · s) hx
    · exact not_imp_comm.1 (afterExec_y · s) hy
    · exact not_imp_comm.1 (afterExec_sp · s) hsp
    · simp [hi, afterExec_halted_iff hhalted]
  · simp [hi, hhalted]

/-- Settles O24, from the frame of the flags. -/
theorem whoWritesTheFlags : Obligations.WhoWritesTheFlags := by
  intro s t h
  obtain ⟨-, -, ⟨i, hi, rfl⟩ | ⟨-, rfl⟩⟩ := step_next_inversion h
  · obtain ⟨hc, hint, hv⟩ := afterExec_inert_flags i s
    refine ⟨hc, hint, hv, fun hne => ⟨i, hi, ?_⟩⟩
    by_contra hnot
    obtain ⟨hrow, hon⟩ := not_or.1 hnot
    exact hne (afterExec_flags hrow (not_and.1 hon))
  · exact ⟨rfl, rfl, rfl, fun hne => absurd rfl hne⟩

/-- Settles O28: all but a branch leave PC past their bytes, as many as the addressing mode says. -/
theorem pcAfterEachStep : Obligations.PcAfterEachStep := by
  intro s t h
  obtain ⟨-, -, ⟨i, hi, rfl⟩ | ⟨hi, rfl⟩⟩ := step_next_inversion h
  · refine ⟨by simp [hi], fun j hj => ?_⟩
    obtain rfl : i = j := Option.some.inj (hi.symm.trans hj)
    have hpc (hmode : i.row.mode ≠ .relative) :
        (afterExec i s).pc = s.pc + BitVec.ofNat 16 (1 + i.row.mode.operandBytes) := afterExec_pc hmode s
    refine ⟨fun hm => ?_, fun hm => ?_, fun hm => ?_, fun rel hbranch => afterExec_branch_pc hbranch s⟩
    · simpa [hm, Mode.operandBytes] using hpc
    · rcases hm with hm | hm <;> simpa [hm, Mode.operandBytes] using hpc
    · simpa [hm, Mode.operandBytes] using hpc
  · exact ⟨fun _ => rfl, by simp [hi]⟩

/-- Settles O30: neither the fetch nor the meaning of such an instruction looks at the register. -/
theorem registersReadOnlyByTheirStores : Obligations.RegistersReadOnlyByTheirStores := by
  intro s t i v h hi
  obtain ⟨hhalted, hfault, ⟨j, hj, rfl⟩ | ⟨hnone, -⟩⟩ := step_next_inversion h
  · obtain rfl : i = j := Option.some.inj (hi.symm.trans hj)
    refine ⟨fun hrow => ?_, fun hrow => ?_, fun hrow => ?_⟩
    · rw [← afterExec_with_a hrow]
      exact step_of_some hhalted hfault hi
    · rw [← afterExec_with_x hrow]
      exact step_of_some hhalted hfault hi
    · rw [← afterExec_with_y hrow]
      exact step_of_some hhalted hfault hi
  · simp [hnone] at hi

/-- Settles O38. -/
theorem memoryFollowsTheBusRequests : Obligations.MemoryFollowsTheBusRequests :=
  fun s _ h => ⟨stepRequests_length_le s, step_mem h, stepRequests_writes_le s⟩

/-- Settles O44: the fields by the definition of reset, memory by the refill, PC by the word at the vector. -/
theorem resetLeavesTheSpecifiedState : Obligations.ResetLeavesTheSpecifiedState := by
  rintro s t rfl
  refine ⟨rfl, rfl, rfl, rfl, rfl, rfl, rfl, fun addr => ?_, ?_⟩
  · exact busRead_refillRam s.cfg s.mem addr
  · exact toNat_append_bytes _ _

/-- Settles O48: a RAM address lies within the list of RAM bytes. -/
theorem observationShowsAllOfRam : Obligations.ObservationShowsAllOfRam := by
  intro s addr hram
  have hlt := (region_eq_ram_iff s.cfg addr).1 hram
  refine ⟨?_, by simp [observe], rfl, rfl, rfl, rfl, rfl, rfl, rfl, rfl⟩
  simp [observe, hlt, memRead, busRead, hram]

/-- Settles O25: bit 7 is the byte's being at least 0x80, so it is clear in 0. -/
theorem setZNComputesBothFlags : Obligations.SetZNComputesBothFlags := by
  intro v f
  have hz : (setZN v f).z = true ↔ v.toNat = 0 := by simp [← BitVec.toNat_inj]
  have hn : (setZN v f).n = true ↔ 0x80 ≤ v.toNat := getLsbD_seven_iff v
  refine ⟨hz, hn, ?_, rfl, rfl, rfl⟩
  rw [hz, hn]
  omega

/-- Settles O41: memory lists nothing and `halted` is 0. -/
theorem resetMeetsTheInvariant : Obligations.ResetMeetsTheInvariant :=
  ⟨Memory.blank_wf Cfg.pNes, fun _ => rfl⟩

/-- Settles O46: the first fetch meets RAM_FILL, 0xFF, which no row of the default assignment has. -/
theorem resetStateIsBootWithoutImage : Obligations.ResetStateIsBootWithoutImage := by
  refine ⟨rfl, rfl, rfl, ?_⟩
  have hnone : fetchInstr State.reset = none := by decide
  exact step_of_none rfl rfl hnone

end Sys2Proof.Machine
end

-- The address map and canonical memories
section
/-! SUPPORT. The third region by address, reading an address that has a backing store, and a canonical memory's cells as a
matter of what its addresses read. -/

namespace Sys2Proof.Machine

/-- The reserved region by address (R50). -/
theorem region_eq_reserved_iff (c : Cfg) (addr : Address) :
    region c addr = .reserved ↔ c.ramSize ≤ addr.toNat ∧ addr.toNat < c.romBase.toNat := by
  unfold region
  split
  · simp; omega
  · split <;> simp <;> omega

/-- R7, R51: in a well-formed configuration nothing at or above ROM_BASE is RAM. -/
theorem region_eq_rom_iff_of_wf {c : Cfg} (h : c.wf) (addr : Address) :
    region c addr = .rom ↔ c.romBase.toNat ≤ addr.toNat := by
  obtain ⟨⟨-, hram⟩, -⟩ := h
  rw [region_eq_rom_iff]
  omega

/-- R7, R51: in a well-formed configuration every address has an offset from ROM_BASE below ROM_SIZE. -/
theorem sub_romBase_lt_romSize {c : Cfg} (h : c.wf) (addr : Address) :
    addr.toNat - c.romBase.toNat < c.romSize := by
  obtain ⟨-, ⟨hsum, hpos⟩, -⟩ := h
  have := addr.isLt
  omega

/-- R55: the reserved region reads 0x00. -/
theorem busRead_reserved {c : Cfg} {addr : Address} (h : region c addr = .reserved) (m : Memory) :
    busRead c m addr = 0x00 := by
  simp [busRead, h]

/-- R55: RAM and ROM answer a read with their byte. -/
theorem busRead_eq_get {c : Cfg} {addr : Address} (h : region c addr ≠ .reserved) (m : Memory) :
    busRead c m addr = Memory.get c m addr.toNat := by
  unfold busRead
  cases hr : region c addr with
  | ram | rom => rfl
  | reserved => exact absurd hr h

/-- R35: RAM nothing has written reads RAM_FILL. -/
theorem busRead_blank_ram {c : Cfg} {addr : Address} (h : region c addr = .ram) :
    busRead c Memory.blank addr = c.ramFill := by
  have hlt := (region_eq_ram_iff c addr).1 h
  simp [busRead_eq_get, h, Memory.get, Memory.blank, Memory.lookup, Memory.unlisted, hlt]

/-- In a list of rising addresses the byte looked up at an address is the one in its cell. -/
theorem Memory.lookup_eq_some_iff {m : Memory} (h : m.Pairwise fun p q => p.1 < q.1) (a : Nat) (v : Byte) :
    Memory.lookup m a = some v ↔ (a, v) ∈ m := by
  induction m with
  | nil => simp [Memory.lookup]
  | cons cell m ih =>
    obtain ⟨k, w⟩ := cell
    obtain ⟨hk, hm⟩ := List.pairwise_cons.1 h
    by_cases hka : k = a
    · subst hka
      have hnot : (k, v) ∉ m := fun hmem => Nat.lt_irrefl k (hk _ hmem)
      simp [Memory.lookup, hnot, eq_comm]
    · simp [Memory.lookup, hka, Ne.symm hka, ih hm]

/-- The cells of a canonical memory are the legal ones whose address reads their byte. -/
theorem Memory.mem_iff_busRead {c : Cfg} {m : Memory} (h : Memory.wf c m) (cell : Host.Cell) :
    cell ∈ m ↔ Memory.legalCell c cell ∧ busRead c m (BitVec.ofNat 16 cell.1) = cell.2 := by
  obtain ⟨hrising, hlegal⟩ := h
  obtain ⟨a, v⟩ := cell
  have hread (hcell : Memory.legalCell c (a, v)) : busRead c m (BitVec.ofNat 16 a) = Memory.get c m a := by
    obtain ⟨hlt, hbacked, -⟩ := hcell
    rw [busRead_eq_get hbacked, BitVec.toNat_ofNat, Nat.mod_eq_of_lt hlt]
  rw [← Memory.lookup_eq_some_iff hrising]
  constructor
  · intro hlookup
    have hcell := hlegal _ ((Memory.lookup_eq_some_iff hrising a v).1 hlookup)
    exact ⟨hcell, by simp [hread hcell, Memory.get, hlookup]⟩
  · rintro ⟨hcell, hv⟩
    rw [hread hcell, Memory.get] at hv
    obtain ⟨-, -, hne⟩ := hcell
    cases hlookup : Memory.lookup m a with
    | none => exact absurd (by simpa [hlookup] using hv.symm) hne
    | some w => simpa [hlookup] using hv

/-- Lists of rising addresses with the same cells are equal. -/
theorem Memory.eq_of_mem_iff {m m' : Memory} (h : m.Pairwise fun p q => p.1 < q.1)
    (h' : m'.Pairwise fun p q => p.1 < q.1) (hmem : ∀ cell, cell ∈ m ↔ cell ∈ m') : m = m' := by
  have : Std.Irrefl fun p q : Host.Cell => p.1 < q.1 := ⟨fun p => Nat.lt_irrefl p.1⟩
  have : Std.Antisymm fun p q : Host.Cell => p.1 < q.1 := ⟨fun _ _ hpq hqp => absurd hqp (Nat.lt_asymm hpq)⟩
  exact h.eq_of_mem_iff h' hmem

end Sys2Proof.Machine
end

-- The frame of memory, and fetching what was stored
section
/-! SUPPORT. What an instruction that stores nothing and one whose data request is a write leave unchanged, what the next
fetch sees of a stored byte, and that with distinct opcode bytes a row's byte decodes to it. -/

namespace Sys2Proof

/-- R86: with distinct opcode bytes each row's byte decodes to that row. -/
theorem decodeRow_byte_of_distinct {o : Opcodes} (h : o.distinct) (r : Row) : decodeRow o (o.byte r) = some r := by
  cases hrow : decodeRow o (o.byte r) with
  | none => exact absurd rfl (decodeRow_eq_none_iff.1 hrow r)
  | some q =>
    rw [Opcodes.distinct, Opcodes.toList_eq] at h
    rw [List.inj_on_of_nodup_map h q.mem_all r.mem_all (decodeRow_byte hrow)]

end Sys2Proof

namespace Sys2Proof.Machine

/-- States alike in configuration and memory read alike. -/
theorem memRead_congr {s t : State} (hcfg : t.cfg = s.cfg) (hmem : t.mem = s.mem) (addr : Address) :
    memRead t addr = memRead s addr := by
  rw [memRead, hcfg, hmem, memRead]

/-- A write request changes no byte but the one at its address, accepted or not (R56, R57). -/
theorem busRead_applyRequest_write_other {ea addr : Address} (h : addr ≠ ea) (c : Cfg) (m : Memory) (v : Byte) :
    busRead c (applyRequest c m (.write ea v)) addr = busRead c m addr := by
  by_cases hram : region c ea = .ram
  · rw [applyRequest_write_ram hram, busRead_put c m ea addr v (by simp [hram]), if_neg h]
  · rw [applyRequest_write_not_ram hram]

/-- After a write request in RAM its address reads its byte. -/
theorem busRead_applyRequest_write_same {c : Cfg} {ea : Address} (h : region c ea = .ram) (m : Memory) (v : Byte) :
    busRead c (applyRequest c m (.write ea v)) ea = v := by
  rw [applyRequest_write_ram h, busRead_put c m ea ea v (by simp [h]), if_pos rfl]

/-- The next state `exec` answers is the one `afterExec` says. -/
theorem eq_afterExec_of_exec {i : Instr} {s t : State} (h : exec i s = .next t) : t = afterExec i s := by
  rw [exec_eq_next_afterExec] at h
  cases h
  rfl

/-- The forms that store nothing leave memory and the fault latch. -/
theorem afterExec_of_not_store {i : Instr}
    (h : i.row ∉ [Row.staZp, .stxZp, .styZp, .staAbs, .stxAbs, .styAbs, .pha]) (s : State) :
    (afterExec i s).mem = s.mem ∧ (afterExec i s).fault = s.fault := by
  cases i with
  | staZp | stxZp | styZp | staAbs | stxAbs | styAbs | pha => simp [Instr.row] at h
  | _ => exact ⟨rfl, rfl⟩

section
variable {i : Instr} {s : State} {ea : Address} {v : Byte} (h : dataRequests i s = [.write ea v])
include h

/-- An instruction whose data request is a write leaves A, X, Y, the flags and the halt latch. -/
theorem afterExec_frame_of_write :
    (afterExec i s).a = s.a ∧ (afterExec i s).x = s.x ∧ (afterExec i s).y = s.y ∧
      (afterExec i s).flags = s.flags ∧ (afterExec i s).halted = s.halted := by
  cases i with
  | staZp | stxZp | styZp | staAbs | stxAbs | styAbs | pha => exact ⟨rfl, rfl, rfl, rfl, rfl⟩
  | _ => simp [dataRequests] at h

/-- Of the instructions whose data request is a write, PHA alone changes SP (R27). -/
theorem afterExec_sp_of_write (hne : i ≠ .pha) : (afterExec i s).sp = s.sp := by
  cases i with
  | pha => exact absurd rfl hne
  | pla => simp [dataRequests] at h
  | _ => rfl

/-- Memory after an instruction whose data request is a write is what the request leaves. -/
theorem afterExec_mem_of_write : (afterExec i s).mem = applyRequest s.cfg s.mem (.write ea v) := by
  rw [afterExec_mem, h]
  rfl

/-- An instruction changes no byte but the one its write request names. -/
theorem memRead_afterExec_of_ne {addr : Address} (hne : addr ≠ ea) :
    memRead (afterExec i s) addr = memRead s addr := by
  rw [memRead, afterExec_cfg, afterExec_mem_of_write h, busRead_applyRequest_write_other hne, memRead]

/-- After an instruction whose write request is in RAM the address reads the byte. -/
theorem memRead_afterExec_stored (hram : region s.cfg ea = .ram) : memRead (afterExec i s) ea = v := by
  rw [memRead, afterExec_cfg, afterExec_mem_of_write h, busRead_applyRequest_write_same hram]

end

/-- With distinct opcode bytes a row's byte at PC is fetched as an instruction of that row. -/
theorem fetchInstr_of_byte {s : State} {r : Row} (h : s.cfg.opcodes.distinct)
    (hbyte : memRead s s.pc = s.cfg.opcodes.byte r) : ∃ b1 b2, fetchInstr s = some (r.build b1 b2) := by
  refine ⟨memRead s (s.pc + 1), memRead s (s.pc + 1 + 1), ?_⟩
  rw [fetchInstr_eq, hbyte, decodeBytes, decodeRow_byte_of_distinct h, Option.map_some]

end Sys2Proof.Machine
end

-- The statements of the family 20_memory
section
/-! The obligations on memory: the address map, reads and writes on the bus, the canonical form, and the frame of memory. -/

namespace Sys2Proof.Machine

/-- Settles O34, from the region lemmas. -/
theorem addressMapHasThreeRegions : Obligations.AddressMapHasThreeRegions :=
  fun c addr =>
    ⟨region_eq_ram_iff c addr, region_eq_rom_iff c addr, region_eq_reserved_iff c addr,
      fun h => ⟨region_eq_rom_iff_of_wf h addr, fun _ => sub_romBase_lt_romSize h addr⟩⟩

/-- Settles O35, from the bus's answer in and outside RAM. -/
theorem readsSeeWrites : Obligations.ReadsSeeWrites := by
  refine ⟨fun c m addr v => ⟨fun hram => ?_, fun hout => ?_, fun hres => ?_⟩, fun c addr hram => ?_⟩
  · exact ⟨_, busWrite_ram hram m v, fun b => busRead_put c m addr b v (by simp [hram])⟩
  · exact busWrite_not_ram hout m v
  · exact busRead_reserved hres m
  · exact busRead_blank_ram hram

/-- Settles O36. -/
theorem wordsAreLittleEndian : Obligations.WordsAreLittleEndian := by
  intro c m addr next h
  have hnext : next = addr + 1 := BitVec.eq_of_toNat_eq (by simpa using h)
  rw [hnext]
  exact toNat_append_bytes _ _

/-- Settles O37: what its addresses read decides a canonical memory's cells, and rising addresses decide their order. -/
theorem canonicalMemoriesAreEqual : Obligations.CanonicalMemoriesAreEqual := by
  intro c m m' h h' hread
  refine Memory.eq_of_mem_iff h.1 h'.1 fun cell => ?_
  rw [Memory.mem_iff_busRead h, Memory.mem_iff_busRead h', hread]

/-- Settles O26. -/
theorem nonStoringFormsLeaveMemory : Obligations.NonStoringFormsLeaveMemory := by
  intro i s t hrow hexec
  obtain rfl := eq_afterExec_of_exec hexec
  obtain ⟨hmem, hfault⟩ := afterExec_of_not_store hrow s
  exact ⟨memRead_congr (afterExec_cfg i s) hmem, hfault, afterExec_cfg i s⟩

/-- Settles O27: each of these forms makes one data request, a write at the address. -/
theorem storingFormsFrame : Obligations.StoringFormsFrame := by
  intro i s t zp lo hi ea hform hexec
  obtain rfl := eq_afterExec_of_exec hexec
  obtain ⟨v, hwrite⟩ : ∃ v, dataRequests i s = [.write ea v] := by
    rcases hform with ⟨rfl | rfl | rfl, rfl⟩ | ⟨rfl | rfl | rfl, rfl⟩ | ⟨rfl, rfl⟩ <;> exact ⟨_, rfl⟩
  obtain ⟨ha, hx, hy, hflags, hhalted⟩ := afterExec_frame_of_write hwrite
  exact ⟨fun _ => memRead_afterExec_of_ne hwrite, ha, hx, hy, hflags, hhalted, afterExec_cfg i s,
    afterExec_sp_of_write hwrite⟩

/-- Settles O39: the fetch reads what the store left, and decodes it in the same configuration. -/
theorem fetchSeesTheStoredByte : Obligations.FetchSeesTheStoredByte := by
  intro i s t ea v hwrite hram hexec
  obtain rfl := eq_afterExec_of_exec hexec
  have hstored : memRead { afterExec i s with pc := ea } ea = v := memRead_afterExec_stored hwrite hram
  refine ⟨hstored, fun r hdistinct hv => ?_⟩
  rw [← afterExec_cfg i s] at hdistinct hv
  exact fetchInstr_of_byte hdistinct (hstored.trans hv)

end Sys2Proof.Machine
end

-- The decoder and the encoder
section
/-! SUPPORT. What the decoder answers, said once by the opcode byte and the operand bytes of a sequence; when operand
bytes build an instruction back; which bytes are opcode bytes and how many are not; and that the encoding at PC is
fetched. -/

namespace Sys2Proof

/-- A row builds, from as many operand bytes as its format has, the instruction with these operands. -/
theorem Row.operands_build {r : Row} {bytes : List Byte} (h : bytes.length = r.mode.operandBytes) :
    (r.build (bytes.getD 0 0) (bytes.getD 1 0)).operands = bytes := by
  cases r with
  | hlt | pha | pla =>
    obtain rfl := List.length_eq_zero_iff.1 h
    rfl
  | ldaAbs | staAbs | stxAbs | styAbs =>
    obtain ⟨lo, hi, rfl⟩ := List.length_eq_two.1 h
    rfl
  | _ =>
    obtain ⟨b, rfl⟩ := List.length_eq_one_iff.1 h
    rfl

/-- The operand bytes, and whatever lies after them, build the instruction back. -/
theorem Instr.build_of_operands_prefix {i : Instr} {b1 b2 : Byte} (h : i.operands <+: [b1, b2]) :
    i.row.build b1 b2 = i := by
  cases i with
  | hlt | pha | pla => rfl
  | ldaAbs | staAbs | stxAbs | styAbs =>
    obtain ⟨rfl, htail⟩ := List.cons_prefix_cons.1 h
    obtain ⟨rfl, -⟩ := List.cons_prefix_cons.1 htail
    rfl
  | _ =>
    obtain ⟨rfl, -⟩ := List.cons_prefix_cons.1 h
    rfl

/-- R80, R86: a sequence decodes exactly when it is an opcode byte, the operand bytes of that byte's row and the bytes
left. -/
theorem decode_eq_instr_iff {o : Opcodes} {bytes rest : List Byte} {i : Instr} :
    decode o bytes = .instr i rest ↔
      ∃ b r operands, bytes = b :: (operands ++ rest) ∧ decodeRow o b = some r ∧
        operands.length = r.mode.operandBytes ∧ i = r.build (operands.getD 0 0) (operands.getD 1 0) := by
  constructor
  · intro h
    match bytes with
    | [] => cases h
    | b :: tail =>
      cases hr : decodeRow o b with
      | none => simp [decode, hr] at h
      | some r =>
        simp only [decode, hr] at h
        split at h
        · rename_i hk
          cases h
          exact ⟨b, r, [], rfl, hr, hk.symm, rfl⟩
        · rename_i b1 _ hk
          cases h
          exact ⟨b, r, [b1], rfl, hr, hk.symm, rfl⟩
        · rename_i b1 b2 _ hk
          cases h
          exact ⟨b, r, [b1, b2], rfl, hr, hk.symm, rfl⟩
        · cases h
  · rintro ⟨b, r, operands, rfl, hr, hk, rfl⟩
    match operands with
    | [] => simp [decode, hr, ← hk]
    | [b1] => simp [decode, hr, ← hk]
    | [b1, b2] => simp [decode, hr, ← hk]
    | _ :: _ :: _ :: _ => cases hm : r.mode <;> simp [hm, Mode.operandBytes] at hk

/-- The length of an encoding is that of the instruction's row. -/
theorem encode_length (o : Opcodes) (i : Instr) : (encode o i).length = i.length := by
  rw [encode, List.length_cons, Instr.operands_length, Instr.length, Row.length, Nat.add_comm]

/-- R86: the decodable bytes are the listed opcode bytes. -/
theorem decodeRow_isSome_iff {o : Opcodes} {b : Byte} : (decodeRow o b).isSome = true ↔ b ∈ o.toList := by
  rw [Option.isSome_iff_ne_none, ne_eq, decodeRow_eq_none_iff]
  simp [Opcodes.toList_eq, Row.mem_all]

/-- The numbers below 256 are the values of 256 different bytes. -/
theorem nodup_map_ofNat_range : ((List.range 256).map (BitVec.ofNat 8)).Nodup := by
  refine List.Nodup.map_on (fun m hm n hn h => ?_) List.nodup_range
  rw [← Nat.mod_eq_of_lt (List.mem_range.1 hm), ← Nat.mod_eq_of_lt (List.mem_range.1 hn)]
  exact congrArg BitVec.toNat h

/-- With distinct opcode bytes the byte values that decode are as many as the opcode bytes. -/
theorem decodable_count {o : Opcodes} (h : o.distinct) :
    (List.range 256).countP (fun n => (decodeRow o (BitVec.ofNat 8 n)).isSome) = 18 := by
  have hperm : (((List.range 256).map (BitVec.ofNat 8)).filter fun b => (decodeRow o b).isSome).Perm o.toList := by
    refine (List.perm_ext_iff_of_nodup (nodup_map_ofNat_range.filter _) h).2 fun b => ?_
    have hb : b ∈ (List.range 256).map (BitVec.ofNat 8) :=
      List.mem_map.2 ⟨b.toNat, List.mem_range.2 b.isLt, by simp⟩
    rw [List.mem_filter, decodeRow_isSome_iff, and_iff_right hb]
  calc (List.range 256).countP (fun n => (decodeRow o (BitVec.ofNat 8 n)).isSome)
      = ((List.range 256).map (BitVec.ofNat 8)).countP (fun b => (decodeRow o b).isSome) := by
        rw [List.countP_map, Function.comp_def]
    _ = o.toList.length := by rw [List.countP_eq_length_filter, hperm.length_eq]
    _ = 18 := rfl

/-- R87: with distinct opcode bytes the other byte values are undecodable. -/
theorem undecodable_count {o : Opcodes} (h : o.distinct) :
    (List.range 256).countP (fun n => (decodeRow o (BitVec.ofNat 8 n)).isNone) = 238 := by
  have hsplit := List.length_eq_countP_add_countP (fun n => (decodeRow o (BitVec.ofNat 8 n)).isSome)
    (l := List.range 256)
  rw [decodable_count h, List.length_range] at hsplit
  simp only [Bool.not_eq_true, Option.isSome_eq_false_iff, Bool.decide_eq_true] at hsplit
  omega

/-- The default opcode bytes in rising order. -/
theorem standard_toList_perm :
    Opcodes.standard.toList.Perm ([0x02, 0x10, 0x30, 0x48, 0x68, 0x84, 0x85, 0x86, 0x8C] ++
      [0x8D, 0x8E, 0xA0, 0xA2, 0xA5, 0xA9, 0xAD, 0xD0, 0xF0]) := by
  decide

end Sys2Proof

namespace Sys2Proof.Machine

/-- The bytes at PC that are an instruction's encoding start the three bytes the fetch looks at. -/
theorem encode_prefix_of_atPc {s : State} {i : Instr} (h : s.atPc i) :
    encode s.cfg.opcodes i <+: [memRead s s.pc, memRead s (s.pc + 1), memRead s (s.pc + 1 + 1)] := by
  have hlen : i.length ≤ 3 := (Laws.EncodedLength.length_bounds i.row).2
  have hrange : List.range i.length <+: List.range 3 := by
    rw [← Nat.min_eq_left hlen, ← List.take_range]
    exact List.take_prefix _ _
  have htwo : s.pc + 1 + 1 = s.pc + 2 := by rw [BitVec.add_assoc]; rfl
  rw [← h, htwo]
  simpa [List.range_succ] using hrange.map fun k => memRead s (s.pc + BitVec.ofNat 16 k)

/-- R80, R101: with distinct opcode bytes the instruction whose encoding lies at PC is the one fetched. -/
theorem fetchInstr_of_atPc {s : State} {i : Instr} (hdistinct : s.cfg.opcodes.distinct) (h : s.atPc i) :
    fetchInstr s = some i := by
  obtain ⟨hbyte, hoperands⟩ := List.cons_prefix_cons.1 (encode_prefix_of_atPc h)
  rw [fetchInstr_eq, ← hbyte, decodeBytes, decodeRow_byte_of_distinct hdistinct, Option.map_some,
    Instr.build_of_operands_prefix hoperands]

end Sys2Proof.Machine
end

-- Signed operands and the assembler's text
section
/-! SUPPORT. The signed byte as a number, the byte a branch's distance has, and what the assembler reads back from the
digits, the operand and the mnemonic of an instruction's text. -/

namespace Sys2Proof.Machine

/-- R9: the zero extension of a byte has the byte's value. -/
@[simp] theorem zext16_toNat (b : Byte) : (zext16 b).toNat = b.toNat :=
  BitVec.toNat_setWidth_of_le (by decide)

/-- R84: the range of a relative operand. -/
theorem signedByte_bounds (b : Byte) : -128 ≤ signedByte b ∧ signedByte b ≤ 127 := by
  have := b.isLt
  unfold signedByte
  split <;> omega

/-- R84: a relative operand is the byte's two's-complement value. -/
theorem signedByte_eq_toInt (b : Byte) : signedByte b = b.toInt := by
  have := b.isLt
  rw [signedByte, BitVec.toInt_eq_toNat_cond]
  split <;> split <;> omega

/-- R84, R150: the sign extension of a byte has the byte's signed value. -/
theorem sext16_toInt (b : Byte) : (sext16 b).toInt = signedByte b := by
  have := b.isLt
  have hhigh : (0xFF00 : Address).toNat = 0xFF00 := rfl
  rw [signedByte, sext16, BitVec.toInt_eq_toNat_cond]
  split
  · rw [zext16_toNat]
    omega
  · rw [BitVec.toNat_add, zext16_toNat, hhigh]
    omega

/-- R90: `relByte` gives a distance the byte whose signed value it is, and no other. -/
theorem relByte_eq_some_iff {d : Int} {rel : Byte} : relByte d = some rel ↔ signedByte rel = d := by
  unfold relByte
  constructor
  · intro h
    split at h
    · cases h
      rw [signedByte_eq_toInt, BitVec.toInt_ofInt, Int.bmod_def]
      omega
    · cases h
  · rintro rfl
    rw [if_pos (signedByte_bounds rel), signedByte_eq_toInt, BitVec.ofInt_toInt]

/-- Each of the 16 digits is read as its own value. -/
theorem findIdx_hexDigits {k : Nat} (h : k < 16) :
    hexDigits.findIdx? (fun d => d == hexDigits.getD k '0') = some k := by
  have hall : ∀ k < 16, hexDigits.findIdx? (fun d => d == hexDigits.getD k '0') = some k := by decide
  exact hall k h

/-- The two digits of a byte's text stand for the byte. -/
theorem hexValue_hexDigits (b : Byte) :
    hexValue (hexDigits.getD (b.toNat / 16) '0') (hexDigits.getD (b.toNat % 16) '0') = some b := by
  have := b.isLt
  rw [hexValue, findIdx_hexDigits (by omega), findIdx_hexDigits (by omega)]
  simp [Nat.div_add_mod']

/-- A decimal digit is read on after those before it. -/
theorem decimalFrom_digit {k : Nat} (h : k < 10) (acc : Nat) (cs : List Char) :
    decimalFrom acc (hexDigits.getD k '0' :: cs) = decimalFrom (acc * 10 + k) cs := by
  rw [decimalFrom, findIdx_hexDigits (by omega)]
  simp [h]

/-- The decimal text of a number below 1000 stands for it. -/
theorem decimalValue_decimalText {n : Nat} (h : n < 1000) : decimalValue (decimalText n) = some n := by
  unfold decimalText
  split
  · rw [decimalValue, decimalFrom_digit (by omega), decimalFrom]
    simp
  · split
    · rw [decimalValue, decimalFrom_digit (by omega), decimalFrom_digit (by omega), decimalFrom]
      congr 1; omega
    · rw [decimalValue, decimalFrom_digit (by omega), decimalFrom_digit (by omega), decimalFrom_digit (by omega),
        decimalFrom]
      congr 1; omega

/-- The text of an absolute operand is read as that operand, whose high byte is written first (R90). -/
theorem operandOf_absoluteText (labels : Labels) (a : Address) (lo hi : Byte) :
    operandOf labels a ('0' :: 'x' :: (hexText hi ++ hexText lo)) = some (.absolute, lo, hi) := by
  simp only [hexText, List.cons_append, List.nil_append, operandOf, hexValue_hexDigits]

/-- The text of a relative operand is read as that operand (R90). -/
theorem operandOf_relativeText (labels : Labels) (a : Address) (rel : Byte) :
    operandOf labels a (relativeText rel) = some (.relative, rel, 0) := by
  have hbounds := signedByte_bounds rel
  have hrel {d : Int} (h : signedByte rel = d) : relByte d = some rel := relByte_eq_some_iff.2 h
  unfold relativeText
  split
  · rw [operandOf, decimalValue_decimalText (by omega), Option.bind_some, hrel (by omega), Option.map_some]
  · rw [operandOf, decimalValue_decimalText (by omega), Option.bind_some, hrel (by omega), Option.map_some]

/-- An instruction without operand bytes has no operand text; that of any other is a blank and a text read as the row's
addressing mode and the operand bytes (R90). -/
theorem operandText_cases (labels : Labels) (a : Address) (i : Instr) :
    (operandText i = [] ∧ i.row.mode = .implied ∧ i.operands = []) ∨
    ∃ text, operandText i = ' ' :: text ∧
      operandOf labels a text = some (i.row.mode, i.operands.getD 0 0, i.operands.getD 1 0) := by
  cases i with
  | hlt | pha | pla => exact .inl ⟨rfl, rfl, rfl⟩
  | ldaImm b | ldxImm b | ldyImm b | ldaZp b | staZp b | stxZp b | styZp b =>
    exact .inr ⟨_, rfl, congrArg (Option.map _) (hexValue_hexDigits b)⟩
  | ldaAbs lo hi | staAbs lo hi | stxAbs lo hi | styAbs lo hi =>
    exact .inr ⟨_, rfl, operandOf_absoluteText labels a lo hi⟩
  | beq rel | bne rel | bpl rel | bmi rel => exact .inr ⟨_, rfl, operandOf_relativeText labels a rel⟩

/-- R85: a mnemonic and an addressing mode name one row. -/
theorem rowOf_letters (r : Row) : rowOf (Row.letters r) r.mode = some r := by
  cases r <;> decide

/-- A mnemonic alone is the line of an instruction without operand bytes. -/
theorem assembleLine_letters (labels : Labels) (a : Address) (r : Row) :
    assembleLine labels a (Row.letters r) = (rowOf (Row.letters r) .implied).map fun r => r.build 0 0 := by
  cases r <;> rfl

/-- A mnemonic, a blank and an operand that is read as an addressing mode and its bytes. -/
theorem assembleLine_letters_operand {labels : Labels} {a : Address} {text : List Char} {mode : Mode} {b1 b2 : Byte}
    (h : operandOf labels a text = some (mode, b1, b2)) (r : Row) :
    assembleLine labels a (Row.letters r ++ ' ' :: text) =
      (rowOf (Row.letters r) mode).map fun r => r.build b1 b2 := by
  cases r <;> simp [Row.letters, assembleLine, h]

/-- R90: the text of an instruction is assembled to it. -/
theorem assembleLine_instrText (labels : Labels) (a : Address) (i : Instr) :
    assembleLine labels a (instrText i) = some i := by
  have hbuild := i.build_operands
  rcases operandText_cases labels a i with ⟨htext, hmode, hnone⟩ | ⟨text, htext, hread⟩
  · rw [hnone] at hbuild
    rw [instrText, htext, List.append_nil, assembleLine_letters, ← hmode, rowOf_letters]
    exact congrArg some hbuild
  · rw [instrText, htext, assembleLine_letters_operand hread, rowOf_letters, Option.map_some, hbuild]

/-- R90, R150: the byte of a label's distance takes the branch to the label. -/
theorem branchTarget_of_relByte {a target : Address} {rel : Byte} (h : relByte (distanceTo a target) = some rel) :
    branchTarget (a + 2) rel = target := by
  have hsext : sext16 rel = target - (a + 2) :=
    BitVec.eq_of_toInt_eq ((sext16_toInt rel).trans (relByte_eq_some_iff.1 h))
  rw [branchTarget, hsext, BitVec.add_comm, BitVec.sub_add_cancel]

end Sys2Proof.Machine
end

-- The statements of the family 30_encoding
section
/-! The obligations on the encoding: decoding and encoding both ways, the opcode bytes, the operand values, the step of
the encoded instruction, and the assembler's text. -/

namespace Sys2Proof.Machine

/-- Settles O1: an encoding is an opcode byte that decodes to its row, and that row's operand bytes. -/
theorem decodeInvertsEncode : Obligations.DecodeInvertsEncode :=
  fun o hdistinct i _ _ => decode_eq_instr_iff.2
    ⟨o.byte i.row, i.row, i.operands, rfl, decodeRow_byte_of_distinct hdistinct i.row, i.operands_length,
      i.build_operands.symm⟩

/-- Settles O2: what was decoded is the row of the opcode byte with the operand bytes after it. -/
theorem encodeInvertsDecode : Obligations.EncodeInvertsDecode := by
  intro o bytes rest i h
  obtain ⟨b, r, operands, rfl, hrow, hlength, rfl⟩ := decode_eq_instr_iff.1 h
  rw [encode, Row.row_build, decodeRow_byte hrow, Row.operands_build hlength, List.cons_append]

/-- Settles O3, from the decoding of each row's byte. -/
theorem opcodeByteDecidesTheRow : Obligations.OpcodeByteDecidesTheRow := by
  intro o hdistinct
  have hdecode := decodeRow_byte_of_distinct hdistinct
  refine ⟨hdecode, fun r q hbyte => ?_, fun b => decodeRow_eq_none_iff.2, fun b0 b1 b2 => ?_⟩
  · exact Option.some.inj ((hdecode r).symm.trans (hbyte ▸ hdecode q))
  · simp [decodeBytes, Function.comp_def]

/-- Settles O4: 18 of the 256 bytes decode, so the other 238 do not. -/
theorem illegalOpcodeBytes : Obligations.IllegalOpcodeBytes := by
  refine ⟨fun o hdistinct => ?_, fun b => ?_, fun o r b1 b2 hdistinct => ⟨?_, Instr.wf_always _⟩⟩
  · rw [← List.countP_eq_length_filter, undecodable_count hdistinct]
  · rw [decodeRow_isSome_iff, standard_toList_perm.mem_iff]
  · rw [decodeBytes, decodeRow_byte_of_distinct hdistinct, Option.map_some]

/-- Settles O6. -/
theorem operandFormsHaveTheirValues : Obligations.OperandFormsHaveTheirValues := by
  refine ⟨fun zp => ?_, fun lo hi => toNat_append_bytes hi lo, sext16_toInt, fun c sp => ?_⟩
  · exact zext16_toNat zp
  · rw [stackAddress, BitVec.toNat_add, zext16_toNat]

/-- Settles O8: the instruction whose encoding lies at PC is fetched, and the step executes it. -/
theorem stepRunsTheEncodedInstruction : Obligations.StepRunsTheEncodedInstruction := by
  rintro s i ⟨hrun, hdistinct, hbytes⟩
  obtain ⟨hhalted, hfault⟩ := (running_iff_latches_empty s).1 hrun
  refine ⟨?_, encode_length _ i, Laws.EncodedLength.length_bounds i.row⟩
  rw [step_of_some hhalted hfault (fetchInstr_of_atPc hdistinct hbytes), exec_eq_next_afterExec]

/-- Settles O49. -/
theorem textAssemblesBack : Obligations.TextAssemblesBack :=
  ⟨assembleLine_instrText, fun _ _ _ => branchTarget_of_relByte⟩

/-- Settles O5, by running the decoder on each word. -/
theorem tableWordsDecode : Obligations.TableWordsDecode := by
  unfold Obligations.TableWordsDecode
  decide

end Sys2Proof.Machine
end

-- Which states step, and how a run ends
section
/-! SUPPORT. That the stopped states are the ones without a step, what a run does in one of them and over two budgets, what
a step reports, and that the fetch gives the instruction which the bytes at PC decode to. -/

namespace Sys2Proof.Machine

/-- R102: a step exists exactly in Running. -/
theorem exists_step_iff_running (s : State) : (∃ t, step s = .next t) ↔ s.running = true := by
  rw [running_iff_latches_empty]
  constructor
  · rintro ⟨t, h⟩
    obtain ⟨hhalted, hfault, -⟩ := step_next_inversion h
    exact ⟨hhalted, hfault⟩
  · rintro ⟨hhalted, hfault⟩
    cases hi : fetchInstr s with
    | some i => exact ⟨_, step_of_some hhalted hfault hi⟩
    | none => exact ⟨_, step_of_none hhalted hfault hi⟩

/-- R102: no step is made in a stopped state. -/
theorem step_ne_next_of_stopped {s : State} (h : s.running = false) (t : State) : step s ≠ .next t :=
  fun hstep => Bool.false_ne_true (h.symm.trans ((exists_step_iff_running s).1 ⟨t, hstep⟩))

/-- R106: a run goes on from the state its first step leaves. -/
theorem runFor_succ_of_step {s t : State} (h : step s = .next t) (k : Nat) : runFor (k + 1) s = runFor k t := by
  simp [runFor, h]

/-- R108: a run from a stopped state stays there, whatever the budget. -/
theorem runFor_of_stopped {s : State} (h : s.running = false) (k : Nat) : runFor k s = s :=
  runFor_keeps (P := (· = s)) (fun _ t hs hstep => absurd (hs ▸ hstep) (step_ne_next_of_stopped h t)) k rfl

/-- A run over two budgets is the run over the second from where the first leaves it. -/
theorem runFor_add (k j : Nat) (s : State) : runFor (k + j) s = runFor j (runFor k s) := by
  induction k generalizing s with
  | zero => rw [Nat.zero_add, runFor]
  | succ k ih =>
    cases hrun : s.running with
    | false => simp only [runFor_of_stopped hrun]
    | true =>
      obtain ⟨t, hstep⟩ := (exists_step_iff_running s).2 hrun
      rw [Nat.add_right_comm, runFor_succ_of_step hstep, runFor_succ_of_step hstep, ih]

/-- A run that has ended has ended within every larger budget. -/
theorem endsWithin_add {k : Nat} {s t : State} (h : endsWithin k s t) (j : Nat) : endsWithin (k + j) s t := by
  obtain ⟨hend, hstopped⟩ := h
  exact ⟨by rw [runFor_add, hend, runFor_of_stopped hstopped], hstopped⟩

/-- R104: a step that executes an instruction reports its cost if the fault latch is left empty, and no cost otherwise. -/
theorem cycleReport_of_some {s t : State} {i : Instr} (h : step s = .next t) (hi : fetchInstr s = some i) :
    cycleReport s = if t.fault.isNone then some (Config.cycles ⟨i.row, i.operands, s.pc, t.pc⟩) else none := by
  simp [cycleReport, nextState, h, hi]

/-- An undecodable opcode has no cost. -/
theorem cycleReport_of_none {s : State} (hi : fetchInstr s = none) : cycleReport s = none := by
  simp [cycleReport, hi]

/-- The decoder of the step gives what three bytes decode to, whatever is left of them. -/
theorem decodeBytes_of_decode {o : Opcodes} {b0 b1 b2 : Byte} {i : Instr} {rest : List Byte}
    (h : decode o [b0, b1, b2] = .instr i rest) : decodeBytes o b0 b1 b2 = some i := by
  obtain ⟨b, r, operands, hbytes, hrow, hlength, rfl⟩ := decode_eq_instr_iff.1 h
  obtain ⟨rfl, htail⟩ := List.cons.inj hbytes
  have hprefix : (r.build (operands.getD 0 0) (operands.getD 1 0)).operands <+: [b1, b2] := by
    rw [Row.operands_build hlength]
    exact ⟨rest, htail.symm⟩
  have hbuild := Instr.build_of_operands_prefix hprefix
  rw [Row.row_build] at hbuild
  rw [decodeBytes, hrow, Option.map_some, hbuild]

/-- R100, R101: the fetch gives the instruction that the bytes at PC decode to. -/
theorem fetchInstr_of_decode {s : State} {i : Instr} {rest : List Byte}
    (h : decode s.cfg.opcodes [memRead s s.pc, memRead s (s.pc + 1), memRead s (s.pc + 2)] = .instr i rest) :
    fetchInstr s = some i := by
  rw [fetchInstr_eq, BitVec.add_assoc]
  exact decodeBytes_of_decode h

end Sys2Proof.Machine
end

-- The statements of the family 40_step_and_hlt
section
/-! The obligations on the step: when one exists, what it executes and reports, HLT, and the end of a run. -/

namespace Sys2Proof.Machine

/-- Settles O10. -/
theorem stepExistsExactlyInRunning : Obligations.StepExistsExactlyInRunning :=
  fun s => ⟨exists_step_iff_running s, fun h => ⟨stepRequests_of_stopped h, runFor_of_stopped h⟩⟩

/-- Settles O11: an executed instruction has a cost exactly if it latches no fault, and an undecodable opcode latches one. -/
theorem stepReportsCostOrFault : Obligations.StepReportsCostOrFault := by
  intro s t h
  obtain ⟨-, -, ⟨i, hi, -⟩ | ⟨hi, rfl⟩⟩ := step_next_inversion h
  · cases hfault : t.fault with
    | none => exact .inl ⟨i, hi, rfl, by simp [cycleReport_of_some h hi, hfault]⟩
    | some record => exact .inr ⟨Option.some_ne_none record, by simp [cycleReport_of_some h hi, hfault]⟩
  · exact .inr ⟨Option.some_ne_none _, cycleReport_of_none hi⟩

/-- Settles O12: the state HLT leaves is not Running, so no step follows. -/
theorem hltHalts : Obligations.HltHalts := by
  rintro s t rfl
  have hexec : exec .hlt s = .next { s with pc := s.pc + 1, halted := true } := execHlt_eq s
  refine ⟨hexec, fun hrun => ?_, rfl, step_ne_next_of_stopped rfl⟩
  obtain ⟨hstep, -⟩ := stepRunsTheEncodedInstruction s .hlt hrun
  exact hstep.trans hexec

/-- Settles O47: with the sum of both budgets, in either order, the run has ended in both states. -/
theorem runEndsAtItsFirstStop : Obligations.RunEndsAtItsFirstStop := by
  intro s t u j k ht
  refine ⟨endsWithin_add ht j, fun hu => ?_⟩
  obtain ⟨htend, -⟩ := endsWithin_add ht j
  obtain ⟨huend, -⟩ := endsWithin_add hu k
  rw [← huend, ← htend, Nat.add_comm]

/-- Settles O7: the decoded instruction is the one fetched, and a step in Running executes it. -/
theorem stepRunsTheDecodedInstruction : Obligations.StepRunsTheDecodedInstruction := by
  intro s i rest hrun _ hdecode
  obtain ⟨hhalted, hfault⟩ := (running_iff_latches_empty s).1 hrun
  rw [step_of_some hhalted hfault (fetchInstr_of_decode hdecode), exec_eq_next_afterExec]

end Sys2Proof.Machine
end

-- What a load leaves, in the numbers of the spec
section
/-! SUPPORT. That the next step answers what `exec` answers for the instruction about to run, Z and N as arithmetic on the
byte, and an effective address known by its value. -/

namespace Sys2Proof.Machine

/-- R100: where an instruction is about to run, the step answers what its meaning answers. -/
theorem step_of_willRun {s : State} {i : Instr} {r : Result} (hexec : exec i s = r) (hrun : s.willRun i) : step s = r := by
  obtain ⟨hstep, -⟩ := stepRunsTheEncodedInstruction s i hrun
  exact hstep.trans hexec

/-- R30: the flags of a value, the negative flag as its being at least 0x80. -/
theorem setZN_eq (v : Byte) (f : Flags) : setZN v f = { f with z := decide (v = 0), n := decide (0x80 ≤ v.toNat) } := by
  have hn : v.getLsbD 7 = decide (0x80 ≤ v.toNat) := by rw [Bool.eq_iff_iff, getLsbD_seven_iff, decide_eq_true_iff]
  rw [setZN, hn]

/-- R29, R30: the flags of a value where the parameter says so. -/
theorem setZNIf_eq (on : Bool) (v : Byte) (f : Flags) :
    setZNIf on v f = if on then { f with z := decide (v = 0), n := decide (0x80 ≤ v.toNat) } else f := by
  rw [setZNIf, setZN_eq]

/-- R84: the address whose value is the operand's is the zero-page address. -/
theorem eq_zeroPageAddress {ea : Address} {zp : Byte} (h : ea.toNat = zp.toNat) : ea = zeroPageAddress zp :=
  BitVec.eq_of_toNat_eq (h.trans (zext16_toNat zp).symm)

/-- R84: the address whose value is `hi8*256 + lo8` is the absolute address. -/
theorem eq_absoluteAddress {ea : Address} {lo hi : Byte} (h : ea.toNat = hi.toNat * 256 + lo.toNat) :
    ea = absoluteAddress lo hi :=
  BitVec.eq_of_toNat_eq (h.trans (toNat_append_bytes hi lo).symm)

end Sys2Proof.Machine
end

-- The statements of the family 41_loads
section
/-! The obligations on the five loads: what each leaves as the next state, and its data access. -/

namespace Sys2Proof.Machine

/-- Settles O13. -/
theorem ldaImmediateLoadsAndSetsZN : Obligations.LdaImmediateLoadsAndSetsZN := by
  rintro s t imm rfl
  rw [← setZN_eq]
  have hexec : exec (.ldaImm imm) s = .next _ := execLdaImm_eq imm s
  exact ⟨hexec, step_of_willRun hexec, rfl⟩

/-- Settles O14: the flags either form leaves are those of the premise. -/
theorem ldxLdyImmediateLoad : Obligations.LdxLdyImmediateLoad := by
  rintro s imm f rfl
  rw [← setZNIf_eq]
  have hldx : exec (.ldxImm imm) s = .next _ := execLdxImm_eq imm s
  have hldy : exec (.ldyImm imm) s = .next _ := execLdyImm_eq imm s
  exact ⟨⟨hldx, step_of_willRun hldx⟩, ⟨hldy, step_of_willRun hldy⟩⟩

/-- Settles O15: an address with the operand's value is the one each form reads, and the reserved region reads 0x00. -/
theorem ldaFromMemoryLoads : Obligations.LdaFromMemoryLoads := by
  refine fun s ea => ⟨fun zp hea => ?_, fun lo hi hea => ?_, fun hreserved => busRead_reserved hreserved s.mem⟩
  · obtain rfl := eq_zeroPageAddress hea
    have hexec : exec (.ldaZp zp) s = .next _ := execLdaZp_eq zp s
    exact ⟨hexec, step_of_willRun hexec, rfl⟩
  · obtain rfl := eq_absoluteAddress hea
    have hexec : exec (.ldaAbs lo hi) s = .next _ := execLdaAbs_eq lo hi s
    exact ⟨hexec, step_of_willRun hexec, rfl⟩

end Sys2Proof.Machine
end

-- What a store of a register leaves
section
/-! SUPPORT. The state after a write request in RAM and elsewhere, and from it all that the stores other than PHA do: their
data request is a write, and PC past their bytes is all they change besides what the bus does with it. -/

namespace Sys2Proof.Machine

/-- R56: a write request in RAM leaves the state with the byte stored. -/
theorem afterWrite_ram {s : State} {ea : Address} (h : region s.cfg ea = .ram) (v : Byte) :
    afterWrite ea v s = { s with mem := Memory.put s.cfg s.mem ea.toNat v } := by
  rw [afterWrite, applyRequest_write_ram h, if_pos h]

/-- R57, R163: a write request elsewhere leaves the state with the rejection latched. -/
theorem afterWrite_not_ram {s : State} {ea : Address} (h : region s.cfg ea ≠ .ram) (v : Byte) :
    afterWrite ea v s = { s with fault := some (.invalidWriteTarget ea v) } := by
  rw [afterWrite, applyRequest_write_not_ram h, if_neg h]

section
variable {i : Instr} {s : State} {ea : Address} {v : Byte} (h : dataRequests i s = [.write ea v]) (hne : i ≠ .pha)
include h hne

/-- Of the instructions whose data request is a write, all but PHA advance PC and make the write. -/
theorem exec_of_write : exec i s = .next (afterWrite ea v (advance i.length s)) := by
  rw [exec_eq_next_afterExec]
  cases i with
  | staZp | stxZp | styZp | staAbs | stxAbs | styAbs =>
    cases h
    rfl
  | pha => exact absurd rfl hne
  | _ => simp [dataRequests] at h

/-- R130 to R135, R162: what a store other than PHA leaves, by the region of its address. -/
theorem store_writes_or_faults :
    (region s.cfg ea = .ram →
      ∃ t, exec i s = .next t ∧ (s.willRun i → step s = .next t) ∧
        t = { s with pc := s.pc + BitVec.ofNat 16 i.length, mem := t.mem } ∧
        ∀ addr, memRead t addr = if addr = ea then v else memRead s addr) ∧
    (region s.cfg ea ≠ .ram →
      ∀ t, t = { s with pc := s.pc + BitVec.ofNat 16 i.length, fault := some (.invalidWriteTarget ea v) } →
        exec i s = .next t ∧ (s.willRun i → step s = .next t)) := by
  have hexec := exec_of_write h hne
  refine ⟨fun hram => ?_, fun hout t ht => ?_⟩
  · rw [afterWrite_ram (s := advance i.length s) hram] at hexec
    exact ⟨_, hexec, step_of_willRun hexec, rfl, fun addr => busRead_put s.cfg s.mem ea addr v (by simp [hram])⟩
  · rw [afterWrite_not_ram (s := advance i.length s) hout] at hexec
    subst ht
    exact ⟨hexec, step_of_willRun hexec⟩

end

end Sys2Proof.Machine
end

-- The statements of the family 42_stores
section
/-! The obligations on the six stores: the write each requests, and what it leaves in RAM and elsewhere. -/

namespace Sys2Proof.Machine

/-- Settles O16: each form is a store at the zero-page address, two bytes long. -/
theorem zeroPageStoresWriteOrFault : Obligations.ZeroPageStoresWriteOrFault := by
  intro s zp v i hform
  rcases hform with ⟨rfl, rfl⟩ | ⟨rfl, rfl⟩ | ⟨rfl, rfl⟩ <;> exact ⟨rfl, store_writes_or_faults rfl nofun⟩

/-- Settles O17: each form is a store at the absolute address, three bytes long. -/
theorem absoluteStoresWriteOrFault : Obligations.AbsoluteStoresWriteOrFault := by
  intro s lo hi v i hform
  rcases hform with ⟨rfl, rfl⟩ | ⟨rfl, rfl⟩ | ⟨rfl, rfl⟩ <;> exact ⟨rfl, store_writes_or_faults rfl nofun⟩

end Sys2Proof.Machine
end

-- What the stack instructions leave
section
/-! SUPPORT. The state PHA leaves, in RAM and elsewhere, and SP one below and one above as numbers modulo 256. -/

namespace Sys2Proof.Machine

/-- R56: what every address reads after an instruction whose data request is a write in RAM. -/
theorem memRead_afterExec_of_write_ram {i : Instr} {s : State} {ea : Address} {v : Byte}
    (h : dataRequests i s = [.write ea v]) (hram : region s.cfg ea = .ram) (addr : Address) :
    memRead (afterExec i s) addr = if addr = ea then v else memRead s addr := by
  by_cases hea : addr = ea
  · rw [if_pos hea, hea, memRead_afterExec_stored h hram]
  · rw [if_neg hea, memRead_afterExec_of_ne h hea]

/-- R140: a push in RAM stores A and decrements SP. -/
theorem afterExec_pha_ram {s : State} (h : region s.cfg (stackAddress s.cfg s.sp) = .ram) :
    afterExec .pha s = { s with
      pc := s.pc + 1, sp := s.sp - 1, mem := Memory.put s.cfg s.mem (stackAddress s.cfg s.sp).toNat s.a } := by
  rw [afterExec, afterWrite_ram (s := advance Instr.pha.length s) h, if_pos h]
  rfl

/-- R162, D21: a push elsewhere latches the fault and leaves SP. -/
theorem afterExec_pha_not_ram {s : State} (h : region s.cfg (stackAddress s.cfg s.sp) ≠ .ram) :
    afterExec .pha s = { s with
      pc := s.pc + 1, fault := some (.invalidWriteTarget (stackAddress s.cfg s.sp) s.a) } := by
  rw [afterExec, afterWrite_not_ram (s := advance Instr.pha.length s) h, if_neg h]
  rfl

/-- R27: SP decremented, as a number. -/
theorem toNat_sub_one (sp : Byte) : (sp - 1).toNat = (sp.toNat + 255) % 256 := by
  rw [BitVec.toNat_sub, Nat.add_comm]
  rfl

/-- R27: the byte whose number is SP's incremented modulo 256. -/
theorem eq_add_one {sp sp' : Byte} (h : sp'.toNat = (sp.toNat + 1) % 256) : sp' = sp + 1 :=
  BitVec.eq_of_toNat_eq (h.trans (BitVec.toNat_add sp 1).symm)

end Sys2Proof.Machine
end

-- The statements of the family 43_stack
section
/-! The obligations on PHA and PLA: what a push and a pull leave, and that a pull undoes a push. -/

namespace Sys2Proof.Machine

/-- Settles O18: PHA answers the state after its write request, in RAM and elsewhere. -/
theorem phaPushesOrFaults : Obligations.PhaPushesOrFaults := by
  intro s
  have hexec := exec_eq_next_afterExec .pha s
  refine ⟨rfl, fun hram => ?_, fun hout t ht => ?_⟩
  · refine ⟨_, hexec, step_of_willRun hexec, ?_, ?_, memRead_afterExec_of_write_ram rfl hram⟩
    · rw [afterExec_pha_ram hram]
    · rw [afterExec_pha_ram hram, toNat_sub_one]
  · rw [afterExec_pha_not_ram hout, ← ht] at hexec
    exact ⟨hexec, step_of_willRun hexec⟩

/-- Settles O19: the new SP is the old one plus one, so PLA reads the byte of the premise. -/
theorem plaPulls : Obligations.PlaPulls := by
  rintro s sp' v hsp rfl t rfl
  obtain rfl := eq_add_one hsp
  rw [← setZN_eq]
  have hexec : exec .pla s = .next _ := execPla_eq s
  exact ⟨hexec, step_of_willRun hexec, rfl⟩

/-- Settles O20: SP incremented after the push is the old SP, so the pull reads the pushed byte. -/
theorem phaThenPlaRestores : Obligations.PhaThenPlaRestores := by
  intro s hram
  have hread := memRead_afterExec_of_write_ram (i := .pha) rfl hram
  have hpushed : s.a = memRead (afterExec .pha s) (stackAddress (afterExec .pha s).cfg s.sp) := by
    rw [afterExec_cfg, hread, if_pos rfl]
  have hsp : s.sp.toNat = ((afterExec .pha s).sp.toNat + 1) % 256 := by
    rw [afterExec_pha_ram hram, toNat_sub_one]
    omega
  obtain ⟨hpull, -⟩ := plaPulls (afterExec .pha s) s.sp s.a hsp hpushed _ rfl
  refine ⟨_, _, exec_eq_next_afterExec .pha s, hpull, ?_, hread⟩
  rw [afterExec_pha_ram hram, BitVec.add_assoc]
  rfl

end Sys2Proof.Machine
end

-- Where a branch goes, and a step that changes nothing
section
/-! SUPPORT. The branch target in the numbers of the spec, what `exec` answers for a branch, and the run from a state that
its step leaves as it was. -/

namespace Sys2Proof.Machine

/-- R150: the branch target is the post-fetch PC plus the signed operand, modulo 2^16. -/
theorem branchTarget_toNat (p : Address) (rel : Byte) :
    ((branchTarget (p + 2) rel).toNat : Int) = ((p.toNat : Int) + 2 + signedByte rel) % 65536 := by
  have hsext := sext16_toInt rel
  rw [BitVec.toInt_eq_toNat_cond] at hsext
  have htarget : (branchTarget (p + 2) rel).toNat = ((p.toNat + 2) % 65536 + (sext16 rel).toNat) % 65536 := rfl
  omega

/-- R151 to R154: a branch writes PC only, and its target exactly when its condition holds. -/
theorem exec_branch {i : Instr} {rel : Byte} {taken : Bool} {s : State}
    (h : (i = .beq rel ∧ taken = s.flags.z) ∨ (i = .bne rel ∧ taken = !s.flags.z) ∨
      (i = .bpl rel ∧ taken = !s.flags.n) ∨ (i = .bmi rel ∧ taken = s.flags.n)) :
    exec i s = .next { s with pc := if taken then branchTarget (s.pc + 2) rel else s.pc + 2 } := by
  obtain ⟨rfl, rfl⟩ | ⟨rfl, rfl⟩ | ⟨rfl, rfl⟩ | ⟨rfl, rfl⟩ := h
  · exact execBeq_eq rel s
  · exact execBne_eq rel s
  · exact execBpl_eq rel s
  · exact execBmi_eq rel s

/-- R150: the operand 0xFE takes a branch back to its own opcode byte. -/
theorem branchTarget_self (p : Address) : branchTarget (p + 2) 0xFE = p :=
  calc p + 2 + sext16 0xFE
    _ = p + (2 + sext16 0xFE) := BitVec.add_assoc p 2 _
    _ = p + 0 := congrArg (p + ·) (by decide)
    _ = p := BitVec.add_zero p

/-- R107: a Running state that its step leaves as it was runs for ever. -/
theorem runsForever_of_step_self {s : State} (hrun : s.running = true) (h : step s = .next s) : runsForever s := by
  intro k
  have hkeep (t u : State) (ht : t = s) (hstep : step t = .next u) : u = s := by
    rw [ht, h] at hstep
    injection hstep with hu
    exact hu.symm
  have hstay : runFor k s = s := runFor_keeps (P := (· = s)) hkeep k rfl
  rw [hstay, hrun]

end Sys2Proof.Machine
end

-- The statements of the family 44_branches
section
/-! The obligations on the four branches: where each leaves PC, and the branch to itself. -/

namespace Sys2Proof.Machine

/-- Settles O21: every branch answers the same state up to PC, which is the post-fetch PC or the branch target. -/
theorem branchesFollowTheirFlag : Obligations.BranchesFollowTheirFlag := by
  intro s rel i taken h
  have hexec := exec_branch h
  have hdata : dataRequests i s = [] := by
    obtain ⟨rfl, -⟩ | ⟨rfl, -⟩ | ⟨rfl, -⟩ | ⟨rfl, -⟩ := h <;> rfl
  refine ⟨hdata, _, hexec, step_of_willRun hexec, rfl, ?_, ?_⟩
  · rintro rfl
    rfl
  · rintro rfl
    exact branchTarget_toNat s.pc rel

/-- Settles O22: the branch is taken, and its target is the PC it started from. -/
theorem bneToItselfNeverEnds : Obligations.BneToItselfNeverEnds := by
  intro s hrun hz
  have hexec : exec (.bne 0xFE) s = .next s := by
    rw [exec_branch (taken := true) (.inr (.inl ⟨rfl, by rw [hz]; rfl⟩)), if_pos rfl, branchTarget_self]
  have hstep : step s = .next s := step_of_willRun hexec hrun
  exact ⟨hstep, runsForever_of_step_self ((exists_step_iff_running s).1 ⟨s, hstep⟩) hstep⟩

end Sys2Proof.Machine
end

-- What a step that latches a fault has done
section
/-! SUPPORT. Which instructions latch a fault and the state they leave, said once for the step (`step_fault_cases`); the zero
page and the stack page of a well-formed configuration; and that C, I and V are carried over whatever they are. -/

namespace Sys2Proof.Machine

section
variable {i : Instr} {s : State} {ea : Address} {v : Byte} (h : dataRequests i s = [.write ea v])
include h

/-- R162, R163: an instruction whose write request is rejected advances PC past its bytes and latches the rejection, and no
more; PHA among them (D21). -/
theorem afterExec_of_write_not_ram (hout : region s.cfg ea ≠ .ram) :
    afterExec i s = { s with pc := s.pc + BitVec.ofNat 16 i.length, fault := some (.invalidWriteTarget ea v) } := by
  by_cases hpha : i = .pha
  · subst hpha
    cases h
    exact afterExec_pha_not_ram hout
  · rw [← eq_afterExec_of_exec (exec_of_write h hpha)]
    exact afterWrite_not_ram (s := advance i.length s) hout v

/-- R56: an instruction whose write request is accepted latches no fault. -/
theorem afterExec_fault_of_write_ram (hram : region s.cfg ea = .ram) : (afterExec i s).fault = s.fault := by
  by_cases hpha : i = .pha
  · subst hpha
    cases h
    rw [afterExec_pha_ram hram]
  · rw [← eq_afterExec_of_exec (exec_of_write h hpha), afterWrite_ram (s := advance i.length s) hram]
    rfl

end

/-- R162, R164: an instruction that latches a fault requested a write outside RAM and is cut there. -/
theorem write_not_ram_of_afterExec_fault {i : Instr} {s : State} (hfault : (afterExec i s).fault ≠ s.fault) :
    ∃ ea v, dataRequests i s = [.write ea v] ∧ region s.cfg ea ≠ .ram ∧
      afterExec i s = { s with pc := s.pc + BitVec.ofNat 16 i.length, fault := some (.invalidWriteTarget ea v) } := by
  obtain ⟨ea, v, hwrite⟩ : ∃ ea v, dataRequests i s = [.write ea v] := by
    cases i with
    | staZp | stxZp | styZp | staAbs | stxAbs | styAbs | pha => exact ⟨_, _, rfl⟩
    | _ => exact absurd rfl hfault
  have hout : region s.cfg ea ≠ .ram := fun hram => hfault (afterExec_fault_of_write_ram hwrite hram)
  exact ⟨ea, v, hwrite, hout, afterExec_of_write_not_ram hwrite hout⟩

/-- R160 to R164: what a step that latches a fault has done. Nothing decoded at PC, or the decoded instruction's write was
rejected; either way the step changed the latch and PC alone. -/
theorem step_fault_cases {s t : State} {record : FaultRecord} (h : step s = .next t) (hfault : t.fault = some record) :
    (fetchInstr s = none ∧ record = .unimplementedOpcode (memRead s s.pc) s.pc ∧
      t = { s with pc := s.pc + 1, fault := some record }) ∨
    (∃ i ea v, fetchInstr s = some i ∧ dataRequests i s = [.write ea v] ∧ region s.cfg ea ≠ .ram ∧
      record = .invalidWriteTarget ea v ∧
      t = { s with pc := s.pc + BitVec.ofNat 16 i.length, fault := some record }) := by
  obtain ⟨-, hempty, ⟨i, hi, rfl⟩ | ⟨hi, rfl⟩⟩ := step_next_inversion h
  · have hne : (afterExec i s).fault ≠ s.fault := by simp [hfault, hempty]
    obtain ⟨ea, v, hwrite, hout, hafter⟩ := write_not_ram_of_afterExec_fault hne
    rw [hafter] at hfault ⊢
    cases hfault
    exact .inr ⟨i, ea, v, hi, hwrite, hout, rfl, rfl⟩
  · cases hfault
    exact .inl ⟨hi, rfl, rfl⟩

/-- R7: in a well-formed configuration the zero page is RAM. -/
theorem region_zeroPageAddress_of_wf {c : Cfg} (h : c.wf) (b : Byte) : region c (zeroPageAddress b) = .ram := by
  obtain ⟨⟨hsize, -⟩, -⟩ := h
  have hb := b.isLt
  rw [region_eq_ram_iff, zeroPageAddress, zext16_toNat]
  omega

/-- R7: in a well-formed configuration the stack page is RAM, so its addresses do not wrap. -/
theorem region_stackAddress_of_wf {c : Cfg} (h : c.wf) (b : Byte) : region c (stackAddress c b) = .ram := by
  obtain ⟨⟨-, hsize⟩, -, -, hstack, -⟩ := h
  have hb := b.isLt
  rw [region_eq_ram_iff, stackAddress, BitVec.toNat_add, zext16_toNat]
  omega

/-- R162: in a well-formed configuration the write requests outside RAM are those of the three absolute stores. -/
theorem absolute_store_of_write_not_ram {i : Instr} {s : State} {ea : Address} {v : Byte} (hwf : s.cfg.wf)
    (h : dataRequests i s = [.write ea v]) (hout : region s.cfg ea ≠ .ram) :
    ∃ lo hi, ea = absoluteAddress lo hi ∧
      ((i = .staAbs lo hi ∧ v = s.a) ∨ (i = .stxAbs lo hi ∧ v = s.x) ∨ (i = .styAbs lo hi ∧ v = s.y)) := by
  cases i with
  | staAbs lo hi | stxAbs lo hi | styAbs lo hi =>
    cases h
    exact ⟨lo, hi, rfl, by simp⟩
  | staZp zp | stxZp zp | styZp zp =>
    cases h
    exact absurd (region_zeroPageAddress_of_wf hwf zp) hout
  | pha =>
    cases h
    exact absurd (region_stackAddress_of_wf hwf s.sp) hout
  | _ => simp [dataRequests] at h

/-- The state with other values of C, I and V. -/
def withInertFlags (c i v : Bool) (s : State) : State :=
  { s with flags := { s.flags with c := c, i := i, v := v } }

/-- R30: the flags of a value carry any C, I and V over, whether Z and N are written or not. -/
theorem setZNIf_with_inert (on : Bool) (b : Byte) (c i v : Bool) (f : Flags) :
    setZNIf on b { f with c := c, i := i, v := v } = { setZNIf on b f with c := c, i := i, v := v } := by
  cases on <;> rfl

/-- R29, R173: every instruction carries any values of C, I and V over and is the same otherwise. -/
theorem afterExec_withInertFlags (instr : Instr) (c i v : Bool) (s : State) :
    afterExec instr (withInertFlags c i v s) = withInertFlags c i v (afterExec instr s) := by
  cases instr with
  | ldxImm imm | ldyImm imm => simp [afterExec, withInertFlags, setZNIf_with_inert, advance]
  | _ => rfl

end Sys2Proof.Machine
end

-- The statements of the family 60_exceptions
section
/-! The obligations on faults: what an undecodable opcode does, which steps fault and what a fault leaves; and the flags that
have no effect. -/

namespace Sys2Proof.Machine

/-- Settles O9: nothing is fetched as an instruction, so the step raises the fault, with the opcode's fetch its one request. -/
theorem undecodableOpcodeFaults : Obligations.UndecodableOpcodeFaults := by
  intro s hrun hbyte
  obtain ⟨hhalted, hempty⟩ := (running_iff_latches_empty s).1 hrun
  have hnone : fetchInstr s = none := (fetchInstr_eq_none_iff s).2 (decodeRow_eq_none_iff.2 hbyte)
  exact ⟨step_of_none hhalted hempty hnone, stepRequests_of_none hrun hnone⟩

/-- Settles O29: the fetch does not look at the flags, and every instruction carries the three over. -/
theorem inertFlagsHaveNoEffect : Obligations.InertFlagsHaveNoEffect := by
  intro s t c i v h
  obtain ⟨hhalted, hempty, ⟨instr, hi, rfl⟩ | ⟨hi, rfl⟩⟩ := step_next_inversion h
  · exact (step_of_some (s := withInertFlags c i v s) hhalted hempty hi).trans
      (congrArg _ (afterExec_withInertFlags instr c i v s))
  · exact step_of_none (s := withInertFlags c i v s) hhalted hempty hi

/-- Settles O31, from the two ways a step latches a fault. -/
theorem faultsArePrecise : Obligations.FaultsArePrecise := by
  intro s t record h hfault
  obtain ⟨hhalted, -⟩ := step_next_inversion h
  obtain ⟨hi, -, rfl⟩ | ⟨i, -, -, hi, -, -, -, rfl⟩ := step_fault_cases h hfault
  · exact ⟨rfl, .inl ⟨hi, rfl⟩, hhalted⟩
  · exact ⟨rfl, .inr ⟨i, hi, rfl⟩, hhalted⟩

/-- Settles O32: each kind of fault has one of the two ways a step latches a fault, and StartupIOError has none. -/
theorem faultsHaveTheirCauses : Obligations.FaultsHaveTheirCauses := by
  intro s t h
  refine ⟨fun op addr hfault => ?_, fun addr v hfault => ?_, fun hfault => ?_, fun i hi hrow => ?_⟩
  · obtain ⟨hi, hrecord, -⟩ | ⟨_, _, _, _, _, _, hrecord, -⟩ := step_fault_cases h hfault
    · cases hrecord
      exact ⟨hi, rfl, rfl⟩
    · cases hrecord
  · obtain ⟨-, hrecord, -⟩ | ⟨i, _, _, hi, hwrite, hout, hrecord, -⟩ := step_fault_cases h hfault
    · cases hrecord
    · cases hrecord
      exact ⟨hout, i, hi, hwrite⟩
  · obtain ⟨-, hrecord, -⟩ | ⟨_, _, _, _, _, _, hrecord, -⟩ := step_fault_cases h hfault <;> cases hrecord
  · obtain ⟨hhalted, hempty, -⟩ := step_next_inversion h
    obtain ⟨-, hkept⟩ := afterExec_of_not_store hrow s
    rw [step_of_some hhalted hempty hi] at h
    cases h
    exact hkept.trans hempty

/-- Settles O33: the rejected write that a latched InvalidWriteTarget comes from can only be an absolute store's. -/
theorem onlyAbsoluteStoresCanMissRam : Obligations.OnlyAbsoluteStoresCanMissRam := by
  intro s hwf
  refine ⟨fun b => ⟨region_zeroPageAddress_of_wf hwf b, region_stackAddress_of_wf hwf b⟩, fun t addr v h hfault => ?_⟩
  obtain ⟨-, hcause, -⟩ := faultsHaveTheirCauses s t h
  obtain ⟨hout, i, hi, hwrite⟩ := hcause addr v hfault
  simp only [hi, Option.some.injEq]
  exact absolute_store_of_write_not_ram hwf hwrite hout

end Sys2Proof.Machine
end

-- Starting a machine with an image
section
/-! SUPPORT. Memory with an image file loaded, when a machine starts with it, and what the started machine reads. -/

namespace Sys2Proof.Machine

/-- Memory with an image file in ROM and RAM as reset leaves it (R197). -/
def imageMemory (c : Cfg) (file : List Byte) : Memory :=
  copyImage c c.romBase.toNat (file.drop imageHeaderBytes) Memory.blank

/-- R197: an accepted file starts the machine that reset leaves with its image in ROM. -/
theorem powerOn_of_imageOk {c : Cfg} {file : List Byte} (h : c.imageOk file) :
    powerOn c file = .started (bootState c (imageMemory c file)) := by
  simp only [powerOn, loadImage, if_pos h, imageMemory]

/-- R164, R196: any other file starts none. -/
theorem powerOn_of_not_imageOk {c : Cfg} {file : List Byte} (h : ¬ c.imageOk file) :
    powerOn c file = .notStarted .startupIOError := by
  simp only [powerOn, loadImage, if_neg h]

/-- Everything that starting a machine can be. -/
theorem powerOn_eq_started_iff {c : Cfg} {file : List Byte} {s : State} :
    powerOn c file = .started s ↔ c.imageOk file ∧ s = bootState c (imageMemory c file) := by
  by_cases h : c.imageOk file
  · rw [powerOn_of_imageOk h, PowerOn.started.injEq]
    exact ⟨fun hs => ⟨h, hs.symm⟩, fun hs => hs.2.symm⟩
  · rw [powerOn_of_not_imageOk h]
    exact ⟨nofun, fun hs => absurd hs.1 h⟩

/-- An accepted image leaves memory canonical: the ROM region reaches to the end of the address space (R7, R37). -/
theorem imageMemory_wf {c : Cfg} {file : List Byte} (hwf : c.wf) (h : c.imageOk file) :
    Memory.wf c (imageMemory c file) := by
  obtain ⟨-, ⟨hsum, -⟩, -⟩ := hwf
  obtain ⟨-, hfits⟩ := h
  refine Memory.copyImage_wf _ (Memory.blank_wf c) (Nat.le_refl _) ?_
  rw [List.length_drop]
  omega

/-- Reset leaves canonical memory canonical and both stop latches empty. -/
theorem bootState_inv {c : Cfg} {m : Memory} (h : Memory.wf c m) : (bootState c m).Inv :=
  ⟨Memory.refillRam_wf h, fun _ => rfl⟩

/-- R190 step 2: after reset RAM reads RAM_FILL and every other address what it held. -/
theorem memRead_bootState (c : Cfg) (m : Memory) (addr : Address) :
    memRead (bootState c m) addr = if region c addr = .ram then c.ramFill else busRead c m addr :=
  busRead_refillRam c m addr

/-- R36: where nothing is listed, an address past RAM holds 0x00. -/
theorem Memory.get_blank_of_le {c : Cfg} {a : Nat} (h : c.ramSize ≤ a) : Memory.get c Memory.blank a = 0 :=
  if_neg (Nat.not_lt.2 h)

/-- R197: the copy puts byte `k` of the image, or 0x00 past its end, at `rom[k]`. -/
theorem get_imageMemory {c : Cfg} (hwf : c.wf) (file : List Byte) (k : Nat) :
    Memory.get c (imageMemory c file) (c.romBase.toNat + k) = file.getD (imageHeaderBytes + k) 0 := by
  obtain ⟨⟨-, hram⟩, -⟩ := hwf
  rw [imageMemory, Memory.get_copyImage]
  split
  · rw [Nat.add_sub_cancel_left, List.getD_eq_getElem?_getD, List.getElem?_drop, List.getD_eq_getElem?_getD]
  · rename_i hpast
    rw [Memory.get_blank_of_le (by omega), List.getD_eq_default]
    rw [List.length_drop] at hpast
    omega

/-- R36: the bus address of `rom[k]`, below the end of the address space. -/
theorem toNat_romAddress {c : Cfg} (hwf : c.wf) {k : Nat} (hk : k < c.romSize) :
    (BitVec.ofNat 16 (c.romBase.toNat + k)).toNat = c.romBase.toNat + k := by
  obtain ⟨-, ⟨hsum, -⟩, -⟩ := hwf
  exact Nat.mod_eq_of_lt (by omega)

/-- R197: the started machine reads byte `k` of the image at `rom[k]`: reset's refill of RAM leaves ROM alone. -/
theorem memRead_bootState_imageMemory {c : Cfg} (hwf : c.wf) (file : List Byte) {k : Nat} (hk : k < c.romSize) :
    memRead (bootState c (imageMemory c file)) (BitVec.ofNat 16 (c.romBase.toNat + k)) =
      file.getD (imageHeaderBytes + k) 0 := by
  have haddr := toNat_romAddress hwf hk
  have hrom : region c (BitVec.ofNat 16 (c.romBase.toNat + k)) = .rom :=
    (region_eq_rom_iff_of_wf hwf _).2 (by omega)
  rw [memRead_bootState, if_neg (by simp [hrom]), busRead_eq_get (by simp [hrom]), haddr, get_imageMemory hwf]

end Sys2Proof.Machine
end

-- The statements of the family 70_reset_and_hazards
section
/-! The obligations on starting a machine: which files start one, what it reads, and that it meets the invariant. -/

namespace Sys2Proof.Machine

/-- Settles O42: the image copy and reset's refill keep memory canonical, and reset empties both latches. -/
theorem powerOnMeetsTheInvariant : Obligations.PowerOnMeetsTheInvariant := by
  intro c file s hwf hstart
  obtain ⟨hok, rfl⟩ := powerOn_eq_started_iff.1 hstart
  exact bootState_inv (imageMemory_wf hwf hok)

/-- Settles O45: RAM by the refill, ROM by the copy, and PC by the release of reset. -/
theorem powerOnLoadsTheImage : Obligations.PowerOnLoadsTheImage := by
  intro c file hwf
  refine ⟨powerOn_of_not_imageOk, fun hok =>
    ⟨_, powerOn_of_imageOk hok, rfl, rfl, fun addr hram => ?_, fun k hk => ?_, rfl⟩⟩
  · rw [memRead_bootState, if_pos hram]
  · exact memRead_bootState_imageMemory hwf file hk

end Sys2Proof.Machine
end
